-- ==== Sys2Proof/Word.lean ====
section
/-! DEFINITION. The widths of the block: bytes of the buffers, 32-bit port words, 64-bit registers
(rule R7, rule R8) and the 8-bit word address of the host port (rule R50). -/

namespace Sys2Proof

/-- A byte of PERM or WBUF; bytes are unsigned 0..255 and compare unsigned (rule R9). -/
abbrev Byte := BitVec 8

/-- A word of the host port: `BUS_WIDTH` is 32 bits (rule R7). -/
abbrev Word := BitVec 32

/-- A 64-bit register or STEPC entry, unsigned (rule R9). -/
abbrev DWord := BitVec 64

/-- The word address `addr[9:2]` of the host port: 256 words (rule R50, rule R52). -/
abbrev WordAddr := BitVec 8

end Sys2Proof
end

