-- ==== Sys2Proof/Config.lean ====
section
/-! DEFINITION. What the spec leaves open, and nothing else: the pseudo-random generator's four
parameters (rule R100), the free values (`93_implementation_defined.md` U3 to U6) and the window's base
(U19). Every open value is an `opaque` constant without a body: no proof can see what it is. -/

namespace Sys2Proof

/-- `PRNG_STATE` (rule R100), an open type of the spec. Its values are numbered by natural numbers: any
state type hardware can hold embeds in `Nat`, and the parameter functions are unconstrained
(DESIGN CHOICE, log entry 1). -/
abbrev PrngState := Nat

/-- One instantiation of the generator parameters (rule R100), with exactly the contract of rule R101:
total functions, 32-bit raw outputs, and a bounded draw inside its bound. The bound stands in the type of
`draw` (a draw with `b = j + 1` is a number of `0..j`), so an instantiation outside the contract is no
`Prng` (rule R214: it is refused, not clamped; log entry 2). -/
structure Prng where
  /-- `PRNG_SEED (seed, stream)`. -/
  seed : DWord → DWord → PrngState
  /-- `PRNG_NEXT32`. -/
  next32 : PrngState → Word × PrngState
  /-- `DRAW_BOUNDED (G, j + 1)`: a "uniform integer in [0, j]" and the advanced state. -/
  draw : PrngState → (j : Nat) → Fin (j + 1) × PrngState

/-- An instantiation of the parameters as a builder might write it, before the contract of rule R101
is checked: `draw` takes the bound `b` itself and may answer anything. -/
structure RawPrng where
  seed : DWord → DWord → PrngState
  next32 : PrngState → Word × PrngState
  draw : PrngState → Nat → Nat × PrngState

/-- The contract of rule R101 on the bounds SFYP uses, `b` in 2..256: `0 ≤ d ≤ b - 1`. -/
def RawPrng.InContract (R : RawPrng) : Prop :=
  ∀ (g : PrngState) (b : Nat), 2 ≤ b → b ≤ 256 → (R.draw g b).1 < b

/-- `P` is the instantiation `R`: the same functions on the bounds SFYP uses. -/
def Prng.Instantiates (P : Prng) (R : RawPrng) : Prop :=
  P.seed = R.seed ∧ P.next32 = R.next32 ∧
    ∀ (g : PrngState) (j : Nat), 1 ≤ j → j ≤ 255 →
      R.draw g (j + 1) = ((P.draw g j).1.val, (P.draw g j).2)

namespace Config

/-- `PRNG_SEED` of the modelled instance: OPEN (rule R100, U1). -/
opaque prngSeed : DWord → DWord → PrngState

/-- `PRNG_NEXT32` of the modelled instance: OPEN (rule R100, U1). -/
opaque prngNext32 : PrngState → Word × PrngState

/-- `DRAW_BOUNDED` of the modelled instance: OPEN (rule R100, U1). -/
opaque drawBounded : PrngState → (j : Nat) → Fin (j + 1) × PrngState

/-- The generator parameters of the modelled instance. -/
def prng : Prng := ⟨prngSeed, prngNext32, drawBounded⟩

/-- `PRNG_STREAM` is 0, fixed (rule R7). -/
def prngStream : DWord := 0

/-- `ANY32`: an unspecified 32-bit value, a fresh draw for each read (rule R55, rule R56, U6). The
argument is the number of free values drawn so far. -/
opaque any32 : Nat → Word

/-- The generator state after a reset: unspecified, fixed at reset (rule R25, rule R241, U3). -/
opaque resetG : Nat → PrngState

/-- Byte `k` of PERM after a reset: unspecified, fixed at reset (rule R26, rule R241, U4). -/
opaque resetPermByte : Nat → Nat → Byte

/-- Byte `k` of WBUF after a reset: unspecified, fixed at reset (rule R27, rule R241, U4). -/
opaque resetWbufByte : Nat → Nat → Byte

/-- `SFYP_BASE`: where the register window sits in a host's own address map, left to the platform
(rule R51, U19). -/
opaque sfypBase : Nat

end Config

end Sys2Proof
end

