-- ==== Sys2Proof/Syntax.lean ====
section
/-! DEFINITION. The commands of SFYP (rule R84, `opcode_table.json`): one constructor per row. A command
carries no immediate and no register number (rule R83). -/

namespace Sys2Proof

/-- The commands a host writes to CMD (rule R84). -/
inductive Instr where
  /-- NOP, word 0x00000000 (rule R190). -/
  | nop
  /-- SEED, word 0x00000001 (rule R102). -/
  | seed
  /-- GEN, word 0x00000002 (rule R103). -/
  | gen
  /-- LOADC, word 0x00000003 (rule R130). -/
  | loadc
  /-- SORT (A = 1, word 0x00000104) or SORT.NA (A = 0, word 0x00000004); `a` is field A, the
  acceleration enable (rule R81, rule R133). -/
  | sort (a : Bool)
  /-- CLRERR, word 0x00000005 (rule R191). -/
  | clrerr
deriving DecidableEq, Repr

end Sys2Proof
end

