-- ==== Sys2Proof/WellFormed.lean ====
section
/-! DEFINITION. The fields of a command word (rule R80) and the checks a legal word passes (rule R81,
rule R82, rule R84). A term of `Instr` has no ill-formed value: its one operand is field A of SORT. -/

namespace Sys2Proof

/-- The fields of a 32-bit command word (rule R80). -/
structure CmdFields where
  /-- OPC, bits [7:0]. -/
  opc : BitVec 8
  /-- A, bit [8]. -/
  a : Bool
  /-- RSV, bits [31:9]. -/
  rsv : BitVec 23
deriving DecidableEq, Repr

/-- RSV must be 0 in every command word (rule R82). -/
def CmdFields.rsvOk (f : CmdFields) : Bool := f.rsv == 0

/-- OPC is one of 0x00 to 0x05 (rule R84). -/
def CmdFields.opcOk (f : CmdFields) : Bool := decide (f.opc ≤ 5)

/-- For every opcode other than SORT, A must be 0 (rule R81). -/
def CmdFields.accelOk (f : CmdFields) : Bool := !f.a || f.opc == 4

/-- A legal command word: all three checks. -/
def CmdFields.wf (f : CmdFields) : Bool := f.rsvOk && f.opcOk && f.accelOk

/-- A legal sequence length, 0 to 256 (rule R23, rule R171). -/
def lengthOk (n : Nat) : Bool := decide (n ≤ 256)

end Sys2Proof
end

