-- ==== Sys2Proof/Decode.lean ====
section
/-! DEFINITION. Decoding of a command word, total, rejecting by name (rule R85, rule R86), and the encoder
written from the opcode map (rule R84). -/

namespace Sys2Proof

/-- Why a word is ILLEGAL (rule R86). -/
inductive DecodeError where
  /-- Some bit of RSV [31:9] is set (rule R82). -/
  | reservedBits
  /-- A = 1 with an opcode other than 0x04 (rule R81). -/
  | accelOutsideSort
  /-- OPC 0x06 to 0xFF (rule R84). -/
  | reservedOpcode
deriving DecidableEq, Repr

/-- The fields of a word: OPC [7:0], A [8], RSV [31:9] (rule R80). -/
def CmdFields.ofWord (w : Word) : CmdFields :=
  { opc := w.extractLsb' 0 8, a := w.getLsbD 8, rsv := w.extractLsb' 9 23 }

/-- The word with the given fields (rule R80). -/
def CmdFields.toWord (f : CmdFields) : Word :=
  (f.rsv ++ (BitVec.ofBool f.a ++ f.opc) : BitVec (23 + (1 + 8)))

/-- Decoding in the order of rule R85. -/
def decode (w : Word) : Except DecodeError Instr :=
  let f := CmdFields.ofWord w
  if f.rsv ≠ 0 then .error .reservedBits
  else if f.opc = 4 then .ok (.sort f.a)
  else if f.a then .error .accelOutsideSort
  else if f.opc = 0 then .ok .nop
  else if f.opc = 1 then .ok .seed
  else if f.opc = 2 then .ok .gen
  else if f.opc = 3 then .ok .loadc
  else if f.opc = 5 then .ok .clrerr
  else .error .reservedOpcode

/-- The opcode map of rule R84 as fields. -/
def Instr.fields : Instr → CmdFields
  | .nop => { opc := 0x00, a := false, rsv := 0 }
  | .seed => { opc := 0x01, a := false, rsv := 0 }
  | .gen => { opc := 0x02, a := false, rsv := 0 }
  | .loadc => { opc := 0x03, a := false, rsv := 0 }
  | .sort a => { opc := 0x04, a := a, rsv := 0 }
  | .clrerr => { opc := 0x05, a := false, rsv := 0 }

/-- Every command's fields are legal; `Instr` has no ill-formed term. -/
def Instr.wf (i : Instr) : Bool := i.fields.wf

/-- The command word of a command (rule R84). -/
def encode (i : Instr) : Word := i.fields.toWord

/-- The command whose word has the bits `w`, as `opcode_table.json` numbers them; a command word is 32
bits, and bits above `nbits` are 0. -/
def decodeTableWord (nbits w : Nat) : Option Instr :=
  match decode (BitVec.ofNat 32 (w % 2 ^ nbits)) with
  | .ok i => some i
  | .error _ => none

end Sys2Proof
end

