-- ==== Sys2Proof/Machine/State.lean ====
section
/-! DEFINITION. The state: the registers, buffers and sequencer of SFYP (`10_state.md`), the HOST agent that
drives the port (rule R12, rule R62), the order in which the agents move, and the model's own counter of
free values. -/

namespace Sys2Proof.Machine

/-- PERM and WBUF: 256 bytes each (rule R26, rule R27). -/
abbrev Buffer := Vector Byte 256

/-- The engine sequencer SEQ: IDLE or RUN(op, a) (rule R21). The operation and its latched acceleration
enable `a` are the command itself: only SORT has an `a`. -/
inductive Seq where
  | idle
  | run (i : Instr)
deriving DecidableEq, Repr

/-- The error codes a rejected access raises (rule R201); code 0 means none. -/
inductive ErrCode where
  | cmdBusy
  | writeBusy
  | illegalCmd
  | notSeeded
  | badValue
  | badAddr
deriving DecidableEq, Repr

/-- One line of a host program (rule R87, rule R88). `rd`, `wr` and each read of `poll` are port accesses;
`clearKey` and `absorb` are the two local steps of the keystream procedure on host memory (rule R4,
rule R170). -/
inductive HostOp where
  /-- `RD`: MemRead at a word address. -/
  | rd (addr : WordAddr)
  /-- `WR`: MemWrite at a word address. -/
  | wr (addr : WordAddr) (v : Word)
  /-- `POLL`: read STATUS until BUSY reads 0. -/
  | poll
  /-- `key[0..n-1] <- 0`. -/
  | clearKey (n : Nat)
  /-- `key <- reverse (key XOR c)`, `c` the first `n` bytes of the RDBYTES reads just made. -/
  | absorb (n : Nat)
deriving DecidableEq, Repr

/-- Which agent makes the next atomic step (rule R62). -/
inductive Move where
  /-- The HOST agent performs its next step. -/
  | host
  /-- The ENGINE agent performs its next step. -/
  | engine
  /-- The reset input is asserted between accesses (rule R240). -/
  | reset
  /-- The reset input is asserted while the host makes its next access: reset takes precedence and the
  access has no effect (rule R205, rule R240). -/
  | resetOverAccess
deriving DecidableEq, Repr

/-- The HOST agent: what it still has to do, the reads it has made and the key of the keystream procedure
in its own memory (rule R4). None of it is SFYP hardware. -/
structure HostAgent where
  /-- The host steps still to be performed, in program order. -/
  prog : List HostOp
  /-- The reads made, newest first: word address and the data returned (the form of rule R89). -/
  reads : List (WordAddr × Word)
  /-- Host memory of the keystream procedure (rule R170). -/
  key : List Byte
deriving DecidableEq, Repr

/-- The state of one SFYP instance with its host. -/
structure State where
  /-- The sequencer (rule R21). -/
  seq : Seq
  /-- SEED, 64 bits (rule R22). -/
  seed : DWord
  /-- LEN, 9 bits, legal values 0 to 256 (rule R23). -/
  len : BitVec 9
  /-- LIMIT, 64 bits unsigned (rule R24). -/
  limit : DWord
  /-- The generator state G (rule R25). -/
  g : PrngState
  /-- PERM, 256 bytes (rule R26). -/
  perm : Buffer
  /-- WBUF, 256 bytes (rule R27). -/
  wbuf : Buffer
  /-- STATUS.BUSY (rule R30). -/
  busy : Bool
  /-- STATUS.SORTED (rule R31). -/
  sorted : Bool
  /-- STATUS.EXHAUSTED (rule R31). -/
  exhausted : Bool
  /-- STATUS.SEEDED (rule R32). -/
  seeded : Bool
  /-- STATUS.ERR, 4 bits (rule R33). -/
  err : BitVec 4
  /-- The HOST agent (rule R12). -/
  host : HostAgent
  /-- The interleaving: the agents' moves still prescribed, in order (rule R62). Statements over every
  state hold for every interleaving. -/
  sched : List Move
  /-- The model's own: how many free values have been drawn (rule R56, rule R241). -/
  draws : Nat
deriving DecidableEq, Repr

/-- Why a step could fault. SFYP raises no traps and no step of it stops the machine (rule R200): there is
no fault, and `Fault` has no constructor. -/
inductive Fault where
deriving DecidableEq, Repr

/-- Why a step could be refused. -/
inductive Refusal where
  /-- Raised by `exec` for a command that has no meaning yet, under its mnemonic (safe). No arm of `exec`
  raises it: every command has its meaning. -/
  | notModelled (mnemonic : String)
deriving DecidableEq, Repr

/-- The state right after power-on reset (rule R241): SEED, LEN, LIMIT and STATUS 0, SEQ IDLE; G, PERM and
WBUF are free values (unspecified, fixed at reset; log entry 4). The host has nothing to do (log entry 7)
and one draw of free values, number 0, has been made (log entry 3). -/
def State.reset : State where
  seq := .idle
  seed := 0
  len := 0
  limit := 0
  g := Config.resetG 0
  perm := Vector.ofFn fun k => Config.resetPermByte 0 k.val
  wbuf := Vector.ofFn fun k => Config.resetWbufByte 0 k.val
  busy := false
  sorted := false
  exhausted := false
  seeded := false
  err := 0
  host := { prog := [], reads := [], key := [] }
  sched := []
  draws := 1

end Sys2Proof.Machine
end

