-- ==== Sys2Proof/Machine/Ops.lean ====
section
/-! DEFINITION. The operations every command and access is built from: the buffers' `B[k]`, `swap` and
`reverse` (rule R10), `finish` (rule R30), the one way an access is rejected (rule R203), and reset (rule
R240, rule R241). -/

namespace Sys2Proof.Machine

/-- `B[k]` (rule R10). The rules only use `k ≤ 255`; outside the buffer the model reads 0, which no legal
state reaches (log entry 6). -/
def byteAt (B : Buffer) (k : Nat) : Byte := B.toList.getD k 0

/-- The buffer whose byte `k` is `f k`. -/
def tabulate (f : Nat → Byte) : Buffer := ⟨((List.range 256).map f).toArray, by simp⟩

/-- The buffer with byte `k` equal to `k`: "[0, 1, ..., 255]" (rule R103). -/
def identityBuffer : Buffer := tabulate (BitVec.ofNat 8)

/-- `swap(B, p, q)` exchanges `B[p]` and `B[q]` (rule R10). -/
def swapBytes (B : Buffer) (p q : Nat) : Buffer :=
  tabulate fun k => if k = p then byteAt B q else if k = q then byteAt B p else byteAt B k

/-- `reverse(B, a, b)` reverses `B[a..b]` in place, both ends included (rule R10). -/
def reverseBytes (B : Buffer) (a b : Nat) : Buffer :=
  tabulate fun k => if a ≤ k ∧ k ≤ b then byteAt B (a + b - k) else byteAt B k

/-- The bytes `B[0..n-1]` as a list, index 0 first. -/
def prefixOf (B : Buffer) (n : Nat) : List Byte := B.toList.take n

/-- The greatest `k < m` with `p k`: `max { k : 0 <= k <= m-1 and p k }` (rule R137). -/
def lastIndex (p : Nat → Bool) : Nat → Option Nat
  | 0 => none
  | m + 1 => if p m then some m else lastIndex p m

/-- `finish`: BUSY <- 0, SEQ <- IDLE (rule R30). -/
def finish (s : State) : State := { s with busy := false, seq := .idle }

/-- The number of an error code (rule R201). -/
def ErrCode.code : ErrCode → BitVec 4
  | .cmdBusy => 1
  | .writeBusy => 2
  | .illegalCmd => 3
  | .notSeeded => 4
  | .badValue => 5
  | .badAddr => 6

/-- `raise Error(code)`: STATUS.ERR <- code and nothing else; the newest rejection overwrites the code of
any earlier one (rule R203). This is SFYP's only exception, and there is no return from it (rule R208). -/
def raiseError (e : ErrCode) (s : State) : State := { s with err := e.code }

/-- Reset of the block: one atomic transition that abandons a running command and gives every register its
reset value, G, PERM and WBUF fresh free values (rule R240, rule R241). The host and the interleaving are
outside the block and keep theirs. -/
def resetBlock (s : State) : State :=
  { State.reset with
    g := Config.resetG s.draws
    perm := Vector.ofFn fun k => Config.resetPermByte s.draws k.val
    wbuf := Vector.ofFn fun k => Config.resetWbufByte s.draws k.val
    host := s.host
    sched := s.sched
    draws := s.draws + 1 }

/-- A free 32-bit value, fresh for each use (rule R56). -/
def freeWord (s : State) : Word × State := (Config.any32 s.draws, { s with draws := s.draws + 1 })

/-- The host has performed the step at the head of its program and goes on with `rest`. -/
def hostGoesOn (rest : List HostOp) (s : State) : State := { s with host := { s.host with prog := rest } }

/-- The host records a read: the address and the data returned (rule R89). -/
def recordRead (a : WordAddr) (v : Word) (s : State) : State :=
  { s with host := { s.host with reads := (a, v) :: s.host.reads } }

/-- The next prescribed move is taken from the interleaving. -/
def popMove (s : State) : State := { s with sched := s.sched.tail }

end Sys2Proof.Machine
end

