-- ==== Sys2Proof/Machine/Flags.lean ====
section
/-! DEFINITION. STATUS: its word and the bits that commands and acceptance write (rule R29 to rule R33). SFYP
has no arithmetic flags (rule R36). -/

namespace Sys2Proof.Machine

/-- STATUS as a 32-bit word: BUSY [0], SORTED [1], EXHAUSTED [2], SEEDED [3], ERR [11:8], the reserved bits 0
(rule R29). -/
def statusWord (s : State) : Word :=
  ((0 : BitVec 20) ++ (s.err ++ ((0 : BitVec 4) ++ (BitVec.ofBool s.seeded ++ (BitVec.ofBool s.exhausted ++
    (BitVec.ofBool s.sorted ++ BitVec.ofBool s.busy))))) : BitVec (20 + (4 + (4 + (1 + (1 + (1 + 1)))))))

/-- Is the command a SORT or SORT.NA? Acceptance clears SORTED and EXHAUSTED for those (rule R31). -/
def isSort : Instr → Bool
  | .nop => false
  | .seed => false
  | .gen => false
  | .loadc => false
  | .sort _ => true
  | .clrerr => false

/-- Does acceptance of the command need SEEDED = 1 (rule R32)? -/
def needsSeed : Instr → Bool
  | .nop => false
  | .seed => false
  | .gen => true
  | .loadc => false
  | .sort _ => false
  | .clrerr => false

/-- The accepting branch of rule R202: BUSY <- 1, for a SORT SORTED <- 0 and EXHAUSTED <- 0, SEQ <- RUN(op, a). -/
def latchCommand (i : Instr) (s : State) : State :=
  { s with
    busy := true
    sorted := s.sorted && !isSort i
    exhausted := s.exhausted && !isSort i
    seq := .run i }

/-- SORT ends with the source's `true` (rule R134). -/
def markSorted (s : State) : State := { s with sorted := true }

/-- SORT ends with the source's `false` (rule R135). -/
def markExhausted (s : State) : State := { s with exhausted := true }

end Sys2Proof.Machine
end

