-- ==== Sys2Proof/Machine/Operands.lean ====
section
/-! DEFINITION. Where operands stand: the register map (rule R51), the packing of buffers and 64-bit registers
into port words (rule R53, rule R54), the step-count ROM (rule R28), and the operands SORT measures on its
sequence (rule R131). -/

namespace Sys2Proof.Machine

/-- What a word address of the window selects (rule R51). -/
inductive Region where
  | cmd
  | status
  | seedLo
  | seedHi
  | len
  | limitLo
  | limitHi
  /-- Word `w` of the PERM window, 0..63. -/
  | perm (w : Nat)
  /-- Word `w` of the WBUF window, 0..63. -/
  | wbuf (w : Nat)
  /-- Word `h` of the STEPC window, 0..41. -/
  | stepc (h : Nat)
  | unmapped
deriving DecidableEq, Repr

/-- The word address of a byte offset of the window, `addr[9:2]` (rule R50). -/
def wordOf (off : Nat) : WordAddr := BitVec.ofNat 8 (off / 4)

/-- The byte offset of a word address. -/
def offsetOf (a : WordAddr) : Nat := 4 * a.toNat

/-- The host's own address of a word of the window: the base is the platform's (`SFYP_BASE`, U19). -/
def platformAddress (a : WordAddr) : Nat := Config.sfypBase + offsetOf a

/-- The register map of rule R51, by byte offset. -/
def regionAt (off : Nat) : Region :=
  if off = 0x000 then .cmd
  else if off = 0x004 then .status
  else if off = 0x008 then .seedLo
  else if off = 0x00C then .seedHi
  else if off = 0x010 then .len
  else if off = 0x014 then .limitLo
  else if off = 0x018 then .limitHi
  else if 0x100 ≤ off ∧ off ≤ 0x1FC then .perm ((off - 0x100) / 4)
  else if 0x200 ≤ off ∧ off ≤ 0x2FC then .wbuf ((off - 0x200) / 4)
  else if 0x300 ≤ off ∧ off ≤ 0x3A4 then .stepc ((off - 0x300) / 4)
  else .unmapped

/-- What a word address selects. -/
def regionOf (a : WordAddr) : Region := regionAt (offsetOf a)

/-- May the host write there at all (rule R51 access column, rule R59)? CMD is the command port. -/
def Region.writable : Region → Bool
  | .cmd => true
  | .status => false
  | .seedLo => true
  | .seedHi => true
  | .len => true
  | .limitLo => true
  | .limitHi => true
  | .perm _ => false
  | .wbuf _ => true
  | .stepc _ => false
  | .unmapped => false

/-- Words whose reads are unspecified while BUSY = 1 (rule R56). -/
def Region.engineOwned : Region → Bool
  | .cmd => false
  | .status => false
  | .seedLo => false
  | .seedHi => false
  | .len => false
  | .limitLo => true
  | .limitHi => true
  | .perm _ => true
  | .wbuf _ => true
  | .stepc _ => false
  | .unmapped => false

/-- Bits [31:0] of a 64-bit register (rule R54). -/
def lo32 (x : DWord) : Word := x.extractLsb' 0 32

/-- Bits [63:32] of a 64-bit register (rule R54). -/
def hi32 (x : DWord) : Word := x.extractLsb' 32 32

/-- The 64-bit value with the given halves. -/
def joinHalves (hi lo : Word) : DWord := (hi ++ lo : BitVec (32 + 32))

/-- `x[31:0] <- v` (rule R58). -/
def withLo (x : DWord) (v : Word) : DWord := joinHalves (hi32 x) v

/-- `x[63:32] <- v` (rule R58). -/
def withHi (x : DWord) (v : Word) : DWord := joinHalves v (lo32 x)

/-- Four bytes as a word, the first in bits [7:0] (rule R53). -/
def packBytes (b0 b1 b2 b3 : Byte) : Word := (b3 ++ (b2 ++ (b1 ++ b0)) : BitVec (8 + (8 + (8 + 8))))

/-- Bits [8b+7:8b] of a word. -/
def wordByte (v : Word) (b : Nat) : Byte := v.extractLsb' (8 * b) 8

/-- Word `w` of a buffer's window (rule R53). -/
def packWord (B : Buffer) (w : Nat) : Word :=
  packBytes (byteAt B (4 * w)) (byteAt B (4 * w + 1)) (byteAt B (4 * w + 2)) (byteAt B (4 * w + 3))

/-- `B[4w+b] <- v[8b+7:8b]` for b = 0..3 (rule R53). -/
def storeWord (B : Buffer) (w : Nat) (v : Word) : Buffer :=
  tabulate fun k => if k / 4 = w then wordByte v (k % 4) else byteAt B k

/-- The step-count ROM, `STEPC[k] = k!` for k = 0..20 (rule R28). Constant: no field of the state. -/
def stepc : Vector DWord 21 := #v[
  0x0000000000000001, 0x0000000000000001, 0x0000000000000002, 0x0000000000000006,
  0x0000000000000018, 0x0000000000000078, 0x00000000000002d0, 0x00000000000013b0,
  0x0000000000009d80, 0x0000000000058980, 0x0000000000375f00, 0x0000000002611500,
  0x000000001c8cfc00, 0x000000017328cc00, 0x000000144c3b2800, 0x0000013077775800,
  0x0000130777758000, 0x0001437eeecd8000, 0x0016beecca730000, 0x01b02b9306890000,
  0x21c3677c82b40000]

/-- Word `h` of the STEPC window: entry `h / 2`, its low half first (rule R54). -/
def stepcWord (h : Nat) : Word :=
  let entry := stepc.toList.getD (h / 2) 0
  if h % 2 = 0 then lo32 entry else hi32 entry

/-- The component: `for k in 0..n-1: W[k] <- P[k]` (rule R130). -/
def copyPrefix (n : Nat) (P W : Buffer) : Buffer :=
  tabulate fun k => if k < n then byteAt P k else byteAt W k

/-- `sorted(s)` for `s = B[0..n-1]`: `n < 2`, or `B[k] ≤ B[k+1]` for every `k` in 0..n-2 (rule R131). -/
def isSorted (B : Buffer) (n : Nat) : Bool :=
  (List.range (n - 1)).all fun k => decide (byteAt B k ≤ byteAt B (k + 1))

/-- The loop of `tailrun` (rule R131) from run length `l`, with `fuel = n - l` bytes before the run. -/
def extendRun (B : Buffer) (n : Nat) : Nat → Nat → Nat
  | 0, l => l
  | fuel + 1, l => if byteAt B (n - l - 1) > byteAt B (n - l) then extendRun B n fuel (l + 1) else l

/-- `tailrun(s)`: the length of the maximal strictly decreasing run at the end of `B[0..n-1]` (rule R131). -/
def tailRun (B : Buffer) (n : Nat) : Nat :=
  if n = 0 then 0 else extendRun B n (n - 1) 1

/-- What a skip of a run of length `l` charges, `STEPC[l] - 1`. The ROM is read only after `2 < l < 21` is
established, and the bound is part of the lookup (rule R136, rule R141). -/
def skipCharge (l : Nat) : Option DWord :=
  if h : 2 < l ∧ l < 21 then some (stepc[l]'h.2 - 1) else none

end Sys2Proof.Machine
end

