-- ==== Sys2Proof/Machine/Control.lean ====
section
/-! DEFINITION. The control commands (`43_control.md`): NOP and CLRERR. -/

namespace Sys2Proof.Machine

/-- NOP's engine step: `finish` (rule R190). -/
def execNop (s : State) : Host.Outcome State Fault Refusal := .next (finish s)

/-- CLRERR's engine step: STATUS.ERR <- 0, then `finish` (rule R191). -/
def execClrerr (s : State) : Host.Outcome State Fault Refusal := .next (finish { s with err := 0 })

end Sys2Proof.Machine
end

