-- ==== Sys2Proof/Machine/Generator.lean ====
section
/-! DEFINITION. The seeded Fisher–Yates permutation generator (`40_generator.md`): SEED and GEN. The generator
itself is a parameter (rule R100); the operations take it as an argument and the commands use the modelled
instance's. -/

namespace Sys2Proof.Machine

/-- The shuffle for index `j` down to 1: one bounded draw in [0, j], one swap of `B[j]` with the drawn index
(rule R103, rule R104). No draw is made for index 0. -/
def shuffle (P : Prng) : Nat → PrngState → Buffer → PrngState × Buffer
  | 0, g, B => (g, B)
  | j + 1, g, B =>
    let r := P.draw g (j + 1)
    shuffle P j r.2 (swapBytes B (j + 1) r.1.val)

/-- What one GEN computes from the generator state: the new state, PERM and LIMIT. -/
structure Generated where
  g : PrngState
  perm : Buffer
  limit : DWord
deriving DecidableEq, Repr

/-- One GEN (rule R103): the shuffle of the identity from index 255, then part1, then part2, with
LIMIT = (part2 << 32) | part1 (rule R105), threading one generator state through all draws (rule R106). -/
def generate (P : Prng) (g : PrngState) : Generated :=
  let shuffled := shuffle P 255 g identityBuffer
  let part1 := P.next32 shuffled.1
  let part2 := P.next32 part1.2
  { g := part2.2
    perm := shuffled.2
    limit := (part2.1.zeroExtend 64 <<< 32) ||| part1.1.zeroExtend 64 }

/-- SEED's effect with a given generator (rule R102): G <- PRNG_SEED(SEED, 0), SEEDED <- 1, `finish`. -/
def seedWith (P : Prng) (s : State) : State :=
  finish { s with g := P.seed s.seed Config.prngStream, seeded := true }

/-- GEN's effect with a given generator (rule R103). -/
def genWith (P : Prng) (s : State) : State :=
  let r := generate P s.g
  finish { s with g := r.g, perm := r.perm, limit := r.limit }

/-- SEED's engine step (rule R102). -/
def execSeed (s : State) : Host.Outcome State Fault Refusal := .next (seedWith Config.prng s)

/-- GEN's engine step (rule R103). -/
def execGen (s : State) : Host.Outcome State Fault Refusal := .next (genWith Config.prng s)

end Sys2Proof.Machine
end

