-- ==== Sys2Proof/Machine/SortEngine.lean ====
section
/-! DEFINITION. The accelerated next-permutation engine (`41_sort_engine.md`): LOADC and SORT. -/

namespace Sys2Proof.Machine

/-- LOADC's engine step (rule R130): `WBUF[k] <- PERM[k]` for k in 0..LEN-1, then `finish`. -/
def execLoadc (s : State) : Host.Outcome State Fault Refusal :=
  .next (finish { s with wbuf := copyPrefix s.len.toNat s.perm s.wbuf })

/-- `max { k : 0 <= k <= n-2 and B[k] > B[k+1] }` (rule R137 step 1). -/
def descentIndex (B : Buffer) (n : Nat) : Option Nat :=
  lastIndex (fun k => decide (byteAt B k > byteAt B (k + 1))) (n - 1)

/-- `max { k : i < k <= n-1 and B[k] < B[i] }` (rule R137 step 2). -/
def smallerIndex (B : Buffer) (n i : Nat) : Option Nat :=
  lastIndex (fun k => decide (i < k) && decide (byteAt B k < byteAt B i)) n

/-- The four moves of the standard step on `B[0..n-1]` (rule R137). Both indices exist whenever the sequence
is not sorted (rule R138), the only case in which the engine gets here. -/
def predecessor (B : Buffer) (n : Nat) : Buffer :=
  match descentIndex B n with
  | none => B
  | some i =>
    match smallerIndex B n i with
    | none => B
    | some j => reverseBytes (swapBytes B i j) (i + 1) (n - 1)

/-- The skip's move: reverse the tail of length `l` (rule R136). -/
def reverseTail (B : Buffer) (n l : Nat) : Buffer := reverseBytes B (n - l) (n - 1)

/-- What one iteration of a SORT does (rule R133). -/
inductive Iteration where
  /-- The sequence is sorted: the SORT ends SORTED (rule R134). -/
  | stopSorted
  /-- LIMIT is 0 and the sequence is not sorted: the SORT ends EXHAUSTED (rule R135). -/
  | stopExhausted
  /-- A skip or a standard step was made: the new buffer and LIMIT (rule R136, rule R137). -/
  | moved (B : Buffer) (limit : DWord)
deriving DecidableEq, Repr

/-- One standard step, charged 1 (rule R137). -/
def standardStep (n : Nat) (B : Buffer) (limit : DWord) : Iteration := .moved (predecessor B n) (limit - 1)

/-- The moving branch of rule R133: the skip when `a = 1`, the tail run has length 3 to 20 and the budget
allows (rule R136), otherwise one standard step. -/
def moveOnce (a : Bool) (n : Nat) (B : Buffer) (limit : DWord) : Iteration :=
  let l := tailRun B n
  match (if a then skipCharge l else none) with
  | none => standardStep n B limit
  | some charge =>
    if limit ≥ charge then .moved (reverseTail B n l) (limit - charge) else standardStep n B limit

/-- One iteration (rule R133): the sortedness check first, then LIMIT = 0, then a move. -/
def sortIteration (a : Bool) (n : Nat) (B : Buffer) (limit : DWord) : Iteration :=
  if isSorted B n then .stopSorted
  else if limit = 0 then .stopExhausted
  else moveOnce a n B limit

/-- SORT's engine step: one iteration. SEQ stays RUN(SORT, a) unless the iteration stops (rule R133). -/
def execSort (a : Bool) (s : State) : Host.Outcome State Fault Refusal :=
  match sortIteration a s.len.toNat s.wbuf s.limit with
  | .stopSorted => .next (finish (markSorted s))
  | .stopExhausted => .next (finish (markExhausted s))
  | .moved B limit => .next { s with wbuf := B, limit := limit }

end Sys2Proof.Machine
end

