-- ==== Sys2Proof/Machine/Dispatch.lean ====
section
/-! DEFINITION. One arm per command: the engine step of the command (rule R102, rule R103, rule R130, rule R133,
rule R190, rule R191). -/

namespace Sys2Proof.Machine

def exec (i : Instr) (s : State) : Host.Outcome State Fault Refusal :=
  match i with
  | .nop => Sys2Proof.Machine.execNop s
  | .seed => Sys2Proof.Machine.execSeed s
  | .gen => Sys2Proof.Machine.execGen s
  | .loadc => Sys2Proof.Machine.execLoadc s
  | .sort a => Sys2Proof.Machine.execSort a s
  | .clrerr => Sys2Proof.Machine.execClrerr s

end Sys2Proof.Machine
end

