-- ==== Sys2Proof/Machine/HostPort.lean ====
section
/-! DEFINITION. The host port (`20_memory.md`, `60_exceptions.md`): MemRead, MemWrite and command acceptance.
Each access is one atomic step (rule R62). -/

namespace Sys2Proof.Machine

/-- The exact contents of a word of the window (rule R55): CMD and unmapped words read 0. -/
def exactRead (r : Region) (s : State) : Word :=
  match r with
  | .cmd => 0
  | .status => statusWord s
  | .seedLo => lo32 s.seed
  | .seedHi => hi32 s.seed
  | .len => s.len.zeroExtend 32
  | .limitLo => lo32 s.limit
  | .limitHi => hi32 s.limit
  | .perm w => packWord s.perm w
  | .wbuf w => packWord s.wbuf w
  | .stepc h => stepcWord h
  | .unmapped => 0

/-- MemRead (rule R55): the exact word, or a fresh free value for an engine-owned word while BUSY = 1 (rule
R56). The state returned differs from `s` in the count of free values only (rule R57). -/
def memRead (a : WordAddr) (s : State) : Word × State :=
  if s.busy && (regionOf a).engineOwned then freeWord s else (exactRead (regionOf a) s, s)

/-- Command acceptance (rule R202): CMD_BUSY, then ILLEGAL_CMD, then NOT_SEEDED, else the command is latched. -/
def acceptCommand (v : Word) (s : State) : State :=
  if s.busy then raiseError .cmdBusy s
  else
    match decode v with
    | .error _ => raiseError .illegalCmd s
    | .ok i => if needsSeed i && !s.seeded then raiseError .notSeeded s else latchCommand i s

/-- The effect of a write that passes its checks (rule R58). Read-only and unmapped words have none, and a
CMD write is `acceptCommand`. -/
def performWrite (r : Region) (v : Word) (s : State) : State :=
  match r with
  | .cmd => s
  | .status => s
  | .seedLo => { s with seed := withLo s.seed v }
  | .seedHi => { s with seed := withHi s.seed v }
  | .len => { s with len := v.extractLsb' 0 9 }
  | .limitLo => { s with limit := withLo s.limit v }
  | .limitHi => { s with limit := withHi s.limit v }
  | .perm _ => s
  | .wbuf w => { s with wbuf := storeWord s.wbuf w v }
  | .stepc _ => s
  | .unmapped => s

/-- A data write (rule R204): BAD_ADDR, then WRITE_BUSY, then BAD_VALUE, else the write is performed. -/
def dataWrite (r : Region) (v : Word) (s : State) : State :=
  if !r.writable then raiseError .badAddr s
  else if s.busy then raiseError .writeBusy s
  else if r = .len ∧ v > 256 then raiseError .badValue s
  else performWrite r v s

/-- MemWrite (rule R58). -/
def memWrite (a : WordAddr) (v : Word) (s : State) : State :=
  if regionOf a = .cmd then acceptCommand v s else dataWrite (regionOf a) v s

end Sys2Proof.Machine
end

