-- ==== Sys2Proof/Machine/Keystream.lean ====
section
/-! DEFINITION. The host's side: the pseudo-instructions (rule R88), the host's local steps on its own memory
(rule R4), the KEYSTREAM procedure as a host program (rule R170), and the source's `derive` as a function. -/

namespace Sys2Proof.Machine

/-- `CMD <mnemonic>` (rule R87). -/
def hostCmd (i : Instr) : HostOp := .wr (wordOf 0x000) (encode i)

/-- `RUN <mnemonic>` (rule R88). -/
def hostRun (i : Instr) : List HostOp := [hostCmd i, .poll]

/-- `WR64 SEED, v` (rule R88). -/
def hostWriteSeed (v : DWord) : List HostOp := [.wr (wordOf 0x008) (lo32 v), .wr (wordOf 0x00C) (hi32 v)]

/-- `WR64 LIMIT, v` (rule R88). -/
def hostWriteLimit (v : DWord) : List HostOp := [.wr (wordOf 0x014) (lo32 v), .wr (wordOf 0x018) (hi32 v)]

/-- `RD64 LIMIT` (rule R88). -/
def hostReadLimit : List HostOp := [.rd (wordOf 0x014), .rd (wordOf 0x018)]

/-- `WR LEN, n` (rule R87). -/
def hostWriteLen (n : Nat) : HostOp := .wr (wordOf 0x010) (BitVec.ofNat 32 n)

/-- `ceil(n/4)`: how many window words hold `n` bytes (rule R88). -/
def wordsFor (n : Nat) : Nat := (n + 3) / 4

/-- `WRBYTES b0, ..., b(n-1)`: missing bytes are 0 (rule R88). -/
def hostWriteBytes (bs : List Byte) : List HostOp :=
  (List.range (wordsFor bs.length)).map fun w =>
    .wr (wordOf (0x200 + 4 * w))
      (packBytes (bs.getD (4 * w) 0) (bs.getD (4 * w + 1) 0) (bs.getD (4 * w + 2) 0) (bs.getD (4 * w + 3) 0))

/-- `RDBYTES WBUF, n` (rule R88). -/
def hostReadWbuf (n : Nat) : List HostOp :=
  (List.range (wordsFor n)).map fun w => .rd (wordOf (0x200 + 4 * w))

/-- `RDBYTES PERM, n` (rule R88). -/
def hostReadPerm (n : Nat) : List HostOp :=
  (List.range (wordsFor n)).map fun w => .rd (wordOf (0x100 + 4 * w))

/-- The bytes of a list of window words, by rule R53. -/
def unpackWords (ws : List Word) : List Byte :=
  ws.flatMap fun v => [wordByte v 0, wordByte v 1, wordByte v 2, wordByte v 3]

/-- The `n` bytes of an RDBYTES just made: the last `ceil(n/4)` reads, oldest first. -/
def bytesRead (n : Nat) (reads : List (WordAddr × Word)) : List Byte :=
  (unpackWords ((reads.take (wordsFor n)).reverse.map Prod.snd)).take n

/-- `for k in 0..N-1: key[k] <- key[k] XOR c[k]`. -/
def xorBytes (k c : List Byte) : List Byte := List.zipWith (· ^^^ ·) k c

/-- Steps d and e of a round: XOR-accumulate, then reverse (rule R170, rule R174). -/
def accumulate (key c : List Byte) : List Byte := (xorBytes key c).reverse

/-- One round of the procedure: GEN, LOADC, SORT, read the component, accumulate it (rule R170 a to e). -/
def roundProgram (n : Nat) : List HostOp :=
  hostRun .gen ++ (hostRun .loadc ++ (hostRun (.sort true) ++ (hostReadWbuf n ++ [.absorb n])))

/-- `k` rounds. -/
def roundsProgram (n : Nat) : Nat → List HostOp
  | 0 => []
  | k + 1 => roundProgram n ++ roundsProgram n k

/-- `ROUNDS` is 16 (rule R7). -/
def keystreamRounds : Nat := 16

/-- `KEYSTREAM(seed, N)` as a host program (rule R170); a host must not call it with N > 256 (rule R171). -/
def keystreamProgram (seed : DWord) (n : Nat) : Option (List HostOp) :=
  if lengthOk n then
    some ([.clearKey n] ++ (hostWriteSeed seed ++ (hostRun .seed ++ ([hostWriteLen n] ++
      roundsProgram n keystreamRounds))))
  else none

/-- A whole SORT as a function: at most `fuel` iterations (rule R133). The Bool is the source's boolean. -/
def sortRun (a : Bool) (n : Nat) : Nat → Buffer → DWord → Buffer × DWord × Bool
  | 0, B, limit => (B, limit, false)
  | fuel + 1, B, limit =>
    match sortIteration a n B limit with
    | .stopSorted => (B, limit, true)
    | .stopExhausted => (B, limit, false)
    | .moved B' limit' => sortRun a n fuel B' limit'

/-- `sort_with_limit`: at most `limit + 1` iterations are needed (rule R145). -/
def sortWithLimit (a : Bool) (n : Nat) (B : Buffer) (limit : DWord) : Buffer × DWord × Bool :=
  sortRun a n (limit.toNat + 1) B limit

/-- The component of a round after its SORT, `c_r` (rule R174). -/
def component (n : Nat) (r : Generated) : List Byte := prefixOf (sortWithLimit true n r.perm r.limit).1 n

/-- `k` rounds of the source's derivation from generator state `g` and key `key` (rule R174). -/
def deriveRounds (P : Prng) (n : Nat) : Nat → PrngState → List Byte → List Byte
  | 0, _, key => key
  | k + 1, g, key =>
    let r := generate P g
    deriveRounds P n k r.g (accumulate key (component n r))

/-- The source's `derive(seed, N)` (rule R170): seeded once, 16 rounds. -/
def derive (P : Prng) (seed : DWord) (n : Nat) : List Byte :=
  deriveRounds P n keystreamRounds (P.seed seed Config.prngStream) (List.replicate n 0)

/-- A read access of the host: the data, and the state after it. An access lost to reset (`lost`) has no
effect and returns a free value (log entry 8). -/
def portRead (lost : Bool) (a : WordAddr) (s : State) : Word × State :=
  if lost then freeWord s else memRead a s

/-- A write access of the host; an access lost to reset has no effect (rule R205). -/
def portWrite (lost : Bool) (a : WordAddr) (v : Word) (s : State) : State :=
  if lost then s else memWrite a v s

/-- One step of the HOST agent: the head of its program, nothing when it has none (rule R12, rule R87, rule
R88). -/
def hostStep (lost : Bool) (s : State) : State :=
  match s.host.prog with
  | [] => s
  | .rd a :: rest =>
    let r := portRead lost a s
    recordRead a r.1 (hostGoesOn rest r.2)
  | .wr a v :: rest => hostGoesOn rest (portWrite lost a v s)
  | .poll :: rest =>
    let r := portRead lost (wordOf 0x004) s
    recordRead (wordOf 0x004) r.1 (if r.1.getLsbD 0 then r.2 else hostGoesOn rest r.2)
  | .clearKey n :: rest => hostGoesOn rest { s with host := { s.host with key := List.replicate n 0 } }
  | .absorb n :: rest =>
    hostGoesOn rest { s with host := { s.host with key := accumulate s.host.key (bytesRead n s.host.reads) } }

end Sys2Proof.Machine
end

