-- ==== Sys2Proof/Machine/Agents.lean ====
section
/-! DEFINITION. The agents of rule R12: what each move does, and which move comes next. -/

namespace Sys2Proof.Machine

/-- One step of the ENGINE agent: the engine step of the latched command; nothing while SEQ = IDLE (rule R213). -/
def engineStep (s : State) : Host.Outcome State Fault Refusal :=
  match s.seq with
  | .idle => .next s
  | .run i => exec i s

/-- A move of the interleaving (rule R62). Reset takes precedence over an access it coincides with (rule R205). -/
def perform (m : Move) (s : State) : Host.Outcome State Fault Refusal :=
  match m with
  | .host => .next (hostStep false s)
  | .engine => engineStep s
  | .reset => .next (resetBlock s)
  | .resetOverAccess => .next (resetBlock (hostStep true s))

/-- The next move: the one the interleaving prescribes; after it the engine while a command runs, else the host
(rule R249; log entry 5). -/
def nextMove (s : State) : Move :=
  match s.sched with
  | m :: _ => m
  | [] =>
    match s.seq with
    | .idle => .host
    | .run _ => .engine

/-- SEEDED as a latched command needs it: GEN is only ever latched with SEEDED = 1 (rule R202). -/
def seededFor (i : Instr) (s : State) : Bool := s.seeded || needsSeed i

/-- The command word `v` as the next thing the machine runs: a legal word latched in SEQ as acceptance latches
it, the engine to move; an illegal word as the next CMD write, the host to move. -/
def placeCommand (v : Word) (s : State) : State :=
  match decode v with
  | .ok i => { latchCommand i s with seeded := seededFor i s, sched := .engine :: s.sched }
  | .error _ =>
    { s with sched := .host :: s.sched, host := { s.host with prog := .wr (wordOf 0x000) v :: s.host.prog } }

end Sys2Proof.Machine
end

