-- ==== Sys2Proof/Machine/Step.lean ====
section
/-! DEFINITION. One atomic step of the whole: the next agent moves (rule R62). -/

namespace Sys2Proof.Machine

/-- One atomic transition (rule R12): the next move is taken from the interleaving and performed. -/
def step (s : State) : Host.Outcome State Fault Refusal := perform (nextMove s) (popMove s)

/-- `s` with the command word of bits `w` placed where the next step runs it (log entry 7). -/
def State.withFetchWord (s : State) (nbits w : Nat) : State :=
  placeCommand (BitVec.ofNat 32 (w % 2 ^ nbits)) s

end Sys2Proof.Machine
end

