-- ==== Sys2Proof/Safety.lean ====
section
/-! DEFINITION. The terms claims are made in: a state about to make a given move, the states a run can be in,
runs of the engine alone, and the notions of `41_sort_engine.md` and `40_generator.md` said without the
model's own functions (sorted, tail run, rank, the trace of a shuffle). -/

namespace Sys2Proof.Machine

/-- `s` with one more host step to be made first, and the host to move. -/
def State.hostNext (s : State) (op : HostOp) : State :=
  { s with sched := .host :: s.sched, host := { s.host with prog := op :: s.host.prog } }

/-- `s` with the engine to move. -/
def State.engineNext (s : State) : State := { s with sched := .engine :: s.sched }

/-- `s` with the reset input asserted. -/
def State.resetNext (s : State) : State := { s with sched := .reset :: s.sched }

/-- `s` with the reset input asserted while the host makes the access `op`. -/
def State.resetOverNext (s : State) (op : HostOp) : State :=
  { s with sched := .resetOverAccess :: s.sched, host := { s.host with prog := op :: s.host.prog } }

/-- What holds of every state a run can be in: BUSY says whether a command runs (rule R30), LEN is legal (rule
R23), ERR is a code of rule R201, SORTED and EXHAUSTED are never both 1 and are 0 while a SORT runs (rule R31,
rule R133), and a running GEN was accepted with SEEDED = 1 (rule R202). -/
structure State.Inv (s : State) : Prop where
  busy_iff : s.busy = true ↔ s.seq ≠ .idle
  len_le : s.len.toNat ≤ 256
  err_le : s.err.toNat ≤ 6
  not_both : ¬ (s.sorted = true ∧ s.exhausted = true)
  sorting : ∀ a, s.seq = .run (.sort a) → s.sorted = false ∧ s.exhausted = false
  gen_seeded : s.seq = .run .gen → s.seeded = true

/-- `k` engine steps in a row; a finished command leaves the rest of them without effect (rule R213). -/
def engineRun : Nat → State → Host.Outcome State Fault Refusal
  | 0, s => .next s
  | k + 1, s =>
    match engineStep s with
    | .next t => engineRun k t
    | .fault r => .fault r
    | .refused r => .refused r

/-- The sequence of a SORT, `s = WBUF[0..LEN-1]` (rule R131). -/
def State.sequence (s : State) : List Byte := prefixOf s.wbuf s.len.toNat

/-- "whole array non-decreasing" for `B[0..n-1]`, as rule R131 words it. -/
def NonDecreasing (B : Buffer) (n : Nat) : Prop := ∀ k, k + 1 < n → byteAt B k ≤ byteAt B (k + 1)

/-- `l` is the length of the maximal strictly decreasing run at the end of `B[0..n-1]` (rule R131). -/
def TailRunIs (B : Buffer) (n l : Nat) : Prop :=
  (n = 0 ∧ l = 0) ∨
    (1 ≤ l ∧ l ≤ n ∧ (∀ k, n - l ≤ k → k + 1 < n → byteAt B (k + 1) < byteAt B k) ∧
      (l = n ∨ ¬ byteAt B (n - l) < byteAt B (n - l - 1)))

/-- The condition of rule R136 for a skip of length `l`: `a = 1`, `2 < l < 21`, `LIMIT ≥ l! - 1`. -/
def SkipCondition (a : Bool) (l : Nat) (limit : DWord) : Prop :=
  a = true ∧ 2 < l ∧ l < 21 ∧ l.factorial - 1 ≤ limit.toNat

/-- `rank(s)` of rule R144: how many distinct arrangements of the bytes of `xs` come before `xs` in
lexicographic order, index 0 most significant. -/
def rank (xs : List Byte) : Nat := (xs.permutations.dedup.filter fun ys => decide (ys < xs)).length

/-- A shuffle as rule R103 and rule R104 describe it, draw by draw: `gs j` and `bs j` are the generator state
and PERM before the draw for index `j`, from `j = 255` down to `j = 1`; each draw is in [0, j] and exchanges
the bytes at `j` and at the drawn index. -/
def ShuffleTrace (P : Prng) (g g' : PrngState) (B' : Buffer) : Prop :=
  ∃ (gs : Nat → PrngState) (bs : Nat → Buffer),
    gs 255 = g ∧ (∀ k, k < 256 → byteAt (bs 255) k = BitVec.ofNat 8 k) ∧
    (∀ j, 1 ≤ j → j ≤ 255 →
      gs (j - 1) = (P.draw (gs j) j).2 ∧
      byteAt (bs (j - 1)) j = byteAt (bs j) (P.draw (gs j) j).1.val ∧
      byteAt (bs (j - 1)) (P.draw (gs j) j).1.val = byteAt (bs j) j ∧
      ∀ k, k < 256 → k ≠ j → k ≠ (P.draw (gs j) j).1.val → byteAt (bs (j - 1)) k = byteAt (bs j) k) ∧
    gs 0 = g' ∧ bs 0 = B'

/-- How the port treats the command word of `i` (the acceptance and error lines of a command's rule): CMD_BUSY
while BUSY = 1; otherwise accepted, BUSY <- 1 and SEQ <- RUN; and a word with the same opcode that has an RSV
bit set, or A set for a command other than SORT, is ILLEGAL. -/
def CommandPort (i : Instr) : Prop :=
  (∀ s : State, s.busy = true → step (s.hostNext (hostCmd i)) = .next { s with err := 1 }) ∧
  (∀ s : State, s.busy = false → (i = .gen → s.seeded = true) → (∀ a, i ≠ .sort a) →
    step (s.hostNext (hostCmd i)) = .next { s with busy := true, seq := .run i }) ∧
  (∀ s : State, s.busy = false → (∃ a, i = .sort a) →
    step (s.hostNext (hostCmd i)) =
      .next { s with busy := true, seq := .run i, sorted := false, exhausted := false }) ∧
  (∀ (s : State) (v : Word), s.busy = false → v.extractLsb' 0 8 = (encode i).extractLsb' 0 8 →
    (v.extractLsb' 9 23 ≠ 0 ∨ (v.getLsbD 8 = true ∧ ∀ a, i ≠ .sort a)) →
    step (s.hostNext (.wr (wordOf 0x000) v)) = .next { s with err := 3 })

/-- `s` with nothing prescribed but the host program `p`, so that the host waits for each command. -/
def State.withProgram (s : State) (p : List HostOp) : State :=
  { s with sched := [], host := { s.host with prog := p } }

end Sys2Proof.Machine
end

