-- ==== Sys2Proof/Certificates/Slice0/Obligations.lean ====
section
/-! DEFINITION. The statements about the model, for the provers. Each docstring names the rule it formalises. -/

open Sys2Proof Sys2Proof.Machine

/-! ## Encoding -/

/-- Rule R84: the words of the opcode map, and the command each decodes to. -/
def Obligations.CommandWordsDecode : Prop :=
  decode 0x00000000 = .ok .nop ∧ decode 0x00000001 = .ok .seed ∧ decode 0x00000002 = .ok .gen ∧
  decode 0x00000003 = .ok .loadc ∧ decode 0x00000004 = .ok (.sort false) ∧
  decode 0x00000104 = .ok (.sort true) ∧ decode 0x00000005 = .ok .clrerr

/-- Rule R85: the order of the decoding checks, and that exactly seven words decode to a command. -/
def Obligations.DecodeChecksInOrder : Prop :=
  ∀ w : Word,
    (w.extractLsb' 9 23 ≠ 0 → decode w = .error .reservedBits) ∧
    (w.extractLsb' 9 23 = 0 → w.extractLsb' 0 8 = 4 → decode w = .ok (.sort (w.getLsbD 8))) ∧
    (w.extractLsb' 9 23 = 0 → w.extractLsb' 0 8 ≠ 4 → w.getLsbD 8 = true → decode w = .error .accelOutsideSort) ∧
    (w.extractLsb' 9 23 = 0 → w.getLsbD 8 = false → w.extractLsb' 0 8 = 0 → decode w = .ok .nop) ∧
    (w.extractLsb' 9 23 = 0 → w.getLsbD 8 = false → w.extractLsb' 0 8 = 1 → decode w = .ok .seed) ∧
    (w.extractLsb' 9 23 = 0 → w.getLsbD 8 = false → w.extractLsb' 0 8 = 2 → decode w = .ok .gen) ∧
    (w.extractLsb' 9 23 = 0 → w.getLsbD 8 = false → w.extractLsb' 0 8 = 3 → decode w = .ok .loadc) ∧
    (w.extractLsb' 9 23 = 0 → w.getLsbD 8 = false → w.extractLsb' 0 8 = 5 → decode w = .ok .clrerr) ∧
    (w.extractLsb' 9 23 = 0 → w.getLsbD 8 = false → 6 ≤ (w.extractLsb' 0 8).toNat →
      decode w = .error .reservedOpcode) ∧
    ((∃ i, decode w = .ok i) ↔
      w ∈ [0x00000000, 0x00000001, 0x00000002, 0x00000003, 0x00000004, 0x00000104, (0x00000005 : Word)])

/-- Rules R80 to R85: decoding and encoding agree in both directions, for every command and every word: a word
decodes to a command exactly when it is that command's word. -/
def Obligations.DecodeEncodeAgree : Prop :=
  ∀ (w : Word) (i : Instr), decode w = .ok i ↔ w = encode i

/-! ## The step -/

/-- Rules R12 and R62: when a command is latched and the engine moves, the step is the meaning of that command;
so is it when no move is prescribed (the model's choice of interleaving, log entry 5). The engine does nothing
while SEQ = IDLE. -/
def Obligations.StepRunsTheLatchedCommand : Prop :=
  (∀ (s : State) (i : Instr), s.seq = .run i → step s.engineNext = exec i s) ∧
  (∀ (s : State) (i : Instr), s.seq = .run i → s.sched = [] → step s = exec i s) ∧
  (∀ s : State, s.seq = .idle → step s.engineNext = .next s)

/-- A placed command word that decodes to `i` is what the very next step runs: the step is `exec i` at the state
in which `i` stands latched as acceptance latches it (log entry 7: how a program comes to run). -/
def Obligations.PlacedWordIsRun : Prop :=
  ∀ (s : State) (w : Nat) (i : Instr), decodeTableWord 32 w = some i →
    step (s.withFetchWord 32 w) =
      exec i { latchCommand i s with seeded := s.seeded || decide (i = .gen) }

/-- No step of SFYP stops the machine: it raises no traps, and every command has its meaning. -/
def Obligations.EveryStepAnswersNext : Prop :=
  ∀ s : State, ∃ t, step s = .next t

/-- Rule R213: when SEQ = IDLE and no host step is made, every register and buffer keeps its value. -/
def Obligations.IdleBlockKeepsItsState : Prop :=
  ∀ s : State, s.seq = .idle → s.sched = [] → s.host.prog = [] → step s = .next s

/-! ## Command acceptance and rejection -/

/-- Rule R202: command acceptance, its checks in order. -/
def Obligations.CommandAcceptance : Prop :=
  ∀ (s : State) (v : Word),
    (s.busy = true → step (s.hostNext (.wr 0 v)) = .next { s with err := 1 }) ∧
    (s.busy = false → (∀ i, decode v ≠ .ok i) → step (s.hostNext (.wr 0 v)) = .next { s with err := 3 }) ∧
    (s.busy = false → decode v = .ok .gen → s.seeded = false →
      step (s.hostNext (.wr 0 v)) = .next { s with err := 4 }) ∧
    (∀ i, s.busy = false → decode v = .ok i → (i = .gen → s.seeded = true) →
      step (s.hostNext (.wr 0 v)) = .next { s with
        busy := true
        seq := .run i
        sorted := if ∃ a, i = .sort a then false else s.sorted
        exhausted := if ∃ a, i = .sort a then false else s.exhausted })

/-- Rule R86: a word with a reserved opcode, an RSV bit set, or A set outside SORT is rejected at the CMD write
with ILLEGAL_CMD and has no other effect. -/
def Obligations.IllegalWordsAreRejected : Prop :=
  ∀ (s : State) (v : Word), s.busy = false →
    (6 ≤ (v.extractLsb' 0 8).toNat ∨ v.extractLsb' 9 23 ≠ 0 ∨
      (v.getLsbD 8 = true ∧ v.extractLsb' 0 8 ≠ 4)) →
    step (s.hostNext (.wr (wordOf 0x000) v)) = .next { s with err := 3 }

/-- Rules R204, R59 and R60: the checks of a data write in order: BAD_ADDR, then WRITE_BUSY, then BAD_VALUE, else
the write is performed (`Obligations.DataWriteEffects` says what that changes). A CMD write while BUSY = 1 is
CMD_BUSY. -/
def Obligations.DataWriteChecks : Prop :=
  ∀ (s : State) (a : WordAddr) (v : Word),
    ((offsetOf a = 0x004 ∨ (0x01C ≤ offsetOf a ∧ offsetOf a ≤ 0x1FC) ∨ 0x300 ≤ offsetOf a) →
      step (s.hostNext (.wr a v)) = .next { s with err := 6 }) ∧
    (((0x008 ≤ offsetOf a ∧ offsetOf a ≤ 0x018) ∨ (0x200 ≤ offsetOf a ∧ offsetOf a ≤ 0x2FC)) → s.busy = true →
      step (s.hostNext (.wr a v)) = .next { s with err := 2 }) ∧
    (offsetOf a = 0x000 → s.busy = true → step (s.hostNext (.wr a v)) = .next { s with err := 1 }) ∧
    (offsetOf a = 0x010 → s.busy = false → 256 < v.toNat →
      step (s.hostNext (.wr a v)) = .next { s with err := 5 }) ∧
    (((0x008 ≤ offsetOf a ∧ offsetOf a ≤ 0x018) ∨ (0x200 ≤ offsetOf a ∧ offsetOf a ≤ 0x2FC)) → s.busy = false →
      (offsetOf a = 0x010 → v.toNat ≤ 256) →
      step (s.hostNext (.wr a v)) = .next (performWrite (regionOf a) v s) ∧
        (performWrite (regionOf a) v s).err = s.err)

/-- Rule R58: what a write that passes its checks changes: the named bits, and nothing else; a CMD write is command
acceptance (`Obligations.CommandAcceptance` says what that is); a LEN value above 256 is rejected; a data write made
twice has the effect of one. -/
def Obligations.DataWriteEffects : Prop :=
  ∀ (s : State) (v : Word), s.busy = false →
    (step (s.hostNext (.wr (wordOf 0x000) v)) = .next (acceptCommand v s)) ∧
    (∃ x : DWord, step (s.hostNext (.wr (wordOf 0x008) v)) = .next { s with seed := x } ∧
      x.extractLsb' 0 32 = v ∧ x.extractLsb' 32 32 = s.seed.extractLsb' 32 32) ∧
    (∃ x : DWord, step (s.hostNext (.wr (wordOf 0x00C) v)) = .next { s with seed := x } ∧
      x.extractLsb' 32 32 = v ∧ x.extractLsb' 0 32 = s.seed.extractLsb' 0 32) ∧
    (∃ x : DWord, step (s.hostNext (.wr (wordOf 0x014) v)) = .next { s with limit := x } ∧
      x.extractLsb' 0 32 = v ∧ x.extractLsb' 32 32 = s.limit.extractLsb' 32 32) ∧
    (∃ x : DWord, step (s.hostNext (.wr (wordOf 0x018) v)) = .next { s with limit := x } ∧
      x.extractLsb' 32 32 = v ∧ x.extractLsb' 0 32 = s.limit.extractLsb' 0 32) ∧
    (256 < v.toNat → step (s.hostNext (.wr (wordOf 0x010) v)) = .next { s with err := 5 }) ∧
    (v.toNat ≤ 256 → ∃ n : BitVec 9, step (s.hostNext (.wr (wordOf 0x010) v)) = .next { s with len := n } ∧
      n.toNat = v.toNat) ∧
    (∀ w, w < 64 → ∃ B : Buffer,
      step (s.hostNext (.wr (wordOf (0x200 + 4 * w)) v)) = .next { s with wbuf := B } ∧
      (∀ b, b < 4 → byteAt B (4 * w + b) = v.extractLsb' (8 * b) 8) ∧
      ∀ k, k < 256 → k / 4 ≠ w → byteAt B k = byteAt s.wbuf k) ∧
    (∀ (a : WordAddr) (t : State), offsetOf a ≠ 0x000 → step (s.hostNext (.wr a v)) = .next t →
      step (t.hostNext (.wr a v)) = .next t)

/-- Rules R203 and R206: a write either leaves ERR alone, or sets it to a code of rule R201 and changes nothing
else. -/
def Obligations.RejectionIsPrecise : Prop :=
  ∀ (s : State) (a : WordAddr) (v : Word), ∃ t, step (s.hostNext (.wr a v)) = .next t ∧
    (t.err = s.err ∨ (t = { s with err := t.err } ∧ 1 ≤ t.err.toNat ∧ t.err.toNat ≤ 6))

/-- Rules R60 and R64: while a command runs, no host step changes anything but the host itself, ERR and the
model's count of free values. -/
def Obligations.HostCannotDisturbRunningCommand : Prop :=
  ∀ s : State, s.busy = true → nextMove s = .host →
    ∃ (h : HostAgent) (e : BitVec 4) (d : Nat),
      step s = .next { s with sched := s.sched.tail, host := h, err := e, draws := d }

/-! ## Host reads -/

/-- Rule R55 (with R53, R54 and R56): what a read of each word returns. Of a word of LIMIT, PERM or WBUF read while
BUSY = 1 nothing is said (ANY32); the count of free values it advances is the model's own (log entry 3). -/
def Obligations.HostReads : Prop :=
  ∀ (s : State) (a : WordAddr), ∃ v : Word,
    step (s.hostNext (.rd a)) = .next { s with
      host := { s.host with reads := (a, v) :: s.host.reads }
      draws := if s.busy = true ∧ ((0x014 ≤ offsetOf a ∧ offsetOf a ≤ 0x018) ∨
        (0x100 ≤ offsetOf a ∧ offsetOf a ≤ 0x2FC)) then s.draws + 1 else s.draws } ∧
    (offsetOf a = 0x000 → v = 0) ∧
    (offsetOf a = 0x004 → v = statusWord s) ∧
    (offsetOf a = 0x008 → v = s.seed.extractLsb' 0 32) ∧
    (offsetOf a = 0x00C → v = s.seed.extractLsb' 32 32) ∧
    (offsetOf a = 0x010 → v.toNat = s.len.toNat) ∧
    (offsetOf a = 0x014 → s.busy = false → v = s.limit.extractLsb' 0 32) ∧
    (offsetOf a = 0x018 → s.busy = false → v = s.limit.extractLsb' 32 32) ∧
    (∀ b, 0x100 ≤ offsetOf a → offsetOf a ≤ 0x1FC → s.busy = false → b < 4 →
      v.extractLsb' (8 * b) 8 = byteAt s.perm (offsetOf a - 0x100 + b)) ∧
    (∀ b, 0x200 ≤ offsetOf a → offsetOf a ≤ 0x2FC → s.busy = false → b < 4 →
      v.extractLsb' (8 * b) 8 = byteAt s.wbuf (offsetOf a - 0x200 + b)) ∧
    (∀ k, k ≤ 20 → offsetOf a = 0x300 + 8 * k → v = BitVec.ofNat 32 (k.factorial)) ∧
    (∀ k, k ≤ 20 → offsetOf a = 0x304 + 8 * k → v = BitVec.ofNat 32 (k.factorial / 2 ^ 32)) ∧
    ((0x01C ≤ offsetOf a ∧ offsetOf a ≤ 0x0FC) ∨ 0x3A8 ≤ offsetOf a → v = 0)

/-- Rule R57: a read changes no register, buffer, status field or error code, and with BUSY = 0 a second read
of the same word returns the same value. -/
def Obligations.ReadsHaveNoSideEffect : Prop :=
  ∀ (s : State) (a : WordAddr), ∃ (v : Word) (d : Nat),
    step (s.hostNext (.rd a)) =
      .next { s with host := { s.host with reads := (a, v) :: s.host.reads }, draws := d } ∧
    (s.busy = false → ∀ t, step (s.hostNext (.rd a)) = .next t →
      step (t.hostNext (.rd a)) =
        .next { t with host := { t.host with reads := (a, v) :: t.host.reads } })

/-- Rule R29: the fields of STATUS, the reserved bits 0, and STATUS 0 after reset. -/
def Obligations.StatusWordLayout : Prop :=
  (∀ s : State,
    (statusWord s).getLsbD 0 = s.busy ∧ (statusWord s).getLsbD 1 = s.sorted ∧
    (statusWord s).getLsbD 2 = s.exhausted ∧ (statusWord s).getLsbD 3 = s.seeded ∧
    (statusWord s).extractLsb' 4 4 = 0 ∧ (statusWord s).extractLsb' 8 4 = s.err ∧
    (statusWord s).extractLsb' 12 20 = 0) ∧
  statusWord State.reset = 0 ∧
  ∀ (s : State) (v : Word), step (s.hostNext (.wr (wordOf 0x004) v)) = .next { s with err := 6 }

/-- Rule R28: every entry of the step-count ROM is `k!`. -/
def Obligations.StepCountsAreFactorials : Prop :=
  ∀ k : Fin 21, stepc[k].toNat = k.val.factorial

/-- Rule R88: `POLL` reads STATUS and goes on exactly when BUSY reads 0. -/
def Obligations.PollWaitsForIdle : Prop :=
  ∀ s : State,
    (s.busy = true → step (s.hostNext .poll) = .next { s with
      host := { s.host with prog := .poll :: s.host.prog, reads := (wordOf 0x004, statusWord s) :: s.host.reads } }) ∧
    (s.busy = false → step (s.hostNext .poll) = .next { s with
      host := { s.host with reads := (wordOf 0x004, statusWord s) :: s.host.reads } })

/-- Rule R88: `WR64` and `WRBYTES` run on an idle block leave the register and the buffer holding the value and the
bytes, missing bytes 0. -/
def Obligations.PseudoWritesStoreTheirOperands : Prop :=
  ∀ s : State, s.seq = .idle → s.busy = false →
    (∀ v : DWord, Host.Core.run Sys2Proof.core 2 (s.withProgram (hostWriteSeed v)) =
      .next { s.withProgram [] with seed := v }) ∧
    (∀ v : DWord, Host.Core.run Sys2Proof.core 2 (s.withProgram (hostWriteLimit v)) =
      .next { s.withProgram [] with limit := v }) ∧
    (∀ bs : List Byte, bs.length ≤ 256 → ∃ B : Buffer,
      Host.Core.run Sys2Proof.core (wordsFor bs.length) (s.withProgram (hostWriteBytes bs)) =
        .next { s.withProgram [] with wbuf := B } ∧
      (∀ k, k < 4 * wordsFor bs.length → byteAt B k = bs.getD k 0) ∧
      ∀ k, k < 256 → 4 * wordsFor bs.length ≤ k → byteAt B k = byteAt s.wbuf k)

/-- Rule R88: `RDBYTES` on an idle block reads the first `n` bytes of the buffer, in order. -/
def Obligations.PseudoReadsReturnTheBytes : Prop :=
  ∀ (s : State) (n : Nat), s.seq = .idle → s.busy = false → n ≤ 256 →
    (∃ t, Host.Core.run Sys2Proof.core (wordsFor n) (s.withProgram (hostReadWbuf n)) = .next t ∧
      bytesRead n t.host.reads = prefixOf s.wbuf n) ∧
    (∃ t, Host.Core.run Sys2Proof.core (wordsFor n) (s.withProgram (hostReadPerm n)) = .next t ∧
      bytesRead n t.host.reads = prefixOf s.perm n)

/-! ## The commands -/

/-- Rule R190: NOP. -/
def Obligations.NopCommand : Prop :=
  encode .nop = 0x00000000 ∧ CommandPort .nop ∧
  (∀ s : State, exec .nop s = .next { s with busy := false, seq := .idle }) ∧
  ∃ t, Host.Core.run Sys2Proof.core 3 (State.reset.withProgram (hostRun .nop)) = .next t ∧
    t.host.prog = [] ∧ statusWord t = 0x00000000

/-- Rule R191: CLRERR clears ERR at its engine step, so a rejection raised after its acceptance is cleared too. -/
def Obligations.ClrerrCommand : Prop :=
  encode .clrerr = 0x00000005 ∧ CommandPort .clrerr ∧
  (∀ s : State, exec .clrerr s = .next { s with err := 0, busy := false, seq := .idle }) ∧
  (∀ s : State, s.seq = .idle → s.busy = false → s.err = 3 → ∃ t,
    Host.Core.run Sys2Proof.core 3 (s.withProgram (hostRun .clrerr)) = .next t ∧ t.host.prog = [] ∧ t.err = 0)

/-- Rule R102: SEED. -/
def Obligations.SeedCommand : Prop :=
  encode .seed = 0x00000001 ∧ CommandPort .seed ∧
  (∀ s : State, exec .seed s = .next { s with
    g := Config.prng.seed s.seed 0, seeded := true, busy := false, seq := .idle }) ∧
  ∃ t, Host.Core.run Sys2Proof.core 5 (State.reset.withProgram (hostWriteSeed 0 ++ hostRun .seed)) = .next t ∧
    t.host.prog = [] ∧ t.g = Config.prng.seed 0 0 ∧ statusWord t = 0x00000008

/-- Rule R103 with R104 to R106: GEN shuffles the identity draw by draw, then draws part1 and part2, threading
one generator state; LIMIT is `part2 ++ part1`; nothing else changes but BUSY and SEQ. Its example: if every
bounded draw is 0 and the raw draws are the two given words, PERM is `[1, 2, ..., 255, 0]`. -/
def Obligations.GenCommand : Prop :=
  encode .gen = 0x00000002 ∧ CommandPort .gen ∧
  (∀ s : State, s.busy = false → s.seeded = false →
    step (s.hostNext (hostCmd .gen)) = .next { s with err := 4 }) ∧
  (∀ s : State, ∃ (g1 : PrngState) (B : Buffer),
    ShuffleTrace Config.prng s.g g1 B ∧
    exec .gen s = .next { s with
      perm := B
      limit := BitVec.zeroExtend 64 (Config.prng.next32 (Config.prng.next32 g1).2).1 <<< 32 |||
        BitVec.zeroExtend 64 (Config.prng.next32 g1).1
      g := (Config.prng.next32 (Config.prng.next32 g1).2).2
      busy := false
      seq := .idle }) ∧
  (∀ (P : Prng) (s : State) (g1 : PrngState) (g2 g3 : PrngState),
    (∀ g j, (P.draw g j).1.val = 0) → (shuffle P 255 s.g identityBuffer).1 = g1 →
    P.next32 g1 = (0x89abcdef, g2) → P.next32 g2 = (0x01234567, g3) →
    (∀ k, k < 256 → byteAt (genWith P s).perm k = BitVec.ofNat 8 ((k + 1) % 256)) ∧
      (genWith P s).limit = 0x0123456789abcdef)

/-- Rule R105: the two raw draws made after the shuffle, part1 first and part2 second, are the low and the high half
of LIMIT. -/
def Obligations.LimitHalvesAreTheDraws : Prop :=
  ∀ s : State, ∃ (t : State) (g1 g2 g3 : PrngState) (part1 part2 : Word),
    exec .gen s = .next t ∧ ShuffleTrace Config.prng s.g g1 t.perm ∧
    Config.prng.next32 g1 = (part1, g2) ∧ Config.prng.next32 g2 = (part2, g3) ∧ t.g = g3 ∧
    t.limit.toNat = part2.toNat * 2 ^ 32 + part1.toNat ∧
    t.limit.extractLsb' 0 32 = part1 ∧ t.limit.extractLsb' 32 32 = part2

/-- Rule R39, an inference the spec marks as its own ("set equality, no duplicates"): after GEN, PERM is a
permutation of 0..255 whatever G held. -/
def Obligations.GenLeavesAPermutation : Prop :=
  ∀ s : State, ∃ t, exec .gen s = .next t ∧ t.perm.toList.Perm ((List.range 256).map (BitVec.ofNat 8))

/-- Rule R107, an inference the spec marks as its own: after SEED with the same seed, the k-th GEN leaves the
same PERM, LIMIT and generator state in any two runs, whatever else differs between the commands, as long as
nothing but these commands replaces G. -/
def Obligations.SameSeedSamePermutations : Prop :=
  ∀ (s s' : State) (before after before' after' : Nat → State),
    s.seed = s'.seed → exec .seed s = .next (after 0) → exec .seed s' = .next (after' 0) →
    (∀ k, (before k).g = (after k).g ∧ exec .gen (before k) = .next (after (k + 1))) →
    (∀ k, (before' k).g = (after' k).g ∧ exec .gen (before' k) = .next (after' (k + 1))) →
    ∀ k, (after (k + 1)).perm = (after' (k + 1)).perm ∧ (after (k + 1)).limit = (after' (k + 1)).limit ∧
      (after (k + 1)).g = (after' (k + 1)).g

/-- Rules R101 and R214: an instantiation of the generator parameters is one of the model exactly when it meets
the contract; one that ever draws `d ≥ b` is refused, neither clamped nor wrapped (log entry 2: the refusal is
by type). -/
def Obligations.OnlyContractualGenerators : Prop :=
  ∀ R : RawPrng, (∃ P : Prng, P.Instantiates R) ↔ R.InContract

/-- Rule R130: LOADC copies `PERM[0..LEN-1]` into WBUF and changes nothing else but BUSY and SEQ. -/
def Obligations.LoadcCommand : Prop :=
  encode .loadc = 0x00000003 ∧ CommandPort .loadc ∧
  ∀ s : State, ∃ B : Buffer, exec .loadc s = .next { s with wbuf := B, busy := false, seq := .idle } ∧
    (∀ k, k < 256 → k < s.len.toNat → byteAt B k = byteAt s.perm k) ∧
    (∀ k, k < 256 → s.len.toNat ≤ k → byteAt B k = byteAt s.wbuf k)

/-! ## SORT -/

/-- Rules R84 and R133: the words of SORT and SORT.NA, their acceptance and their rejections; the acceptance
clears SORTED and EXHAUSTED. -/
def Obligations.SortAcceptance : Prop :=
  encode (.sort true) = 0x00000104 ∧ encode (.sort false) = 0x00000004 ∧
  CommandPort (.sort true) ∧ CommandPort (.sort false)

/-- Rule R131: the sortedness check and the tail-run length of the engine are the ones of the rule. -/
def Obligations.SortedAndTailRunMeasured : Prop :=
  ∀ (B : Buffer) (n : Nat),
    (isSorted B n = true ↔ n < 2 ∨ NonDecreasing B n) ∧ ∀ l, tailRun B n = l ↔ TailRunIs B n l

/-- Rule R134: an iteration that finds the sequence sorted ends the SORT with SORTED <- 1, whatever LIMIT is,
and leaves LIMIT and WBUF. -/
def Obligations.SortStopsWhenSorted : Prop :=
  ∀ (a : Bool) (s : State), NonDecreasing s.wbuf s.len.toNat →
    exec (.sort a) s = .next { s with sorted := true, busy := false, seq := .idle }

/-- Rule R135: an iteration that finds the sequence not sorted and LIMIT = 0 ends the SORT with EXHAUSTED <- 1
and leaves WBUF. -/
def Obligations.SortStopsWhenExhausted : Prop :=
  ∀ (a : Bool) (s : State), ¬ NonDecreasing s.wbuf s.len.toNat → s.limit = 0 →
    exec (.sort a) s = .next { s with exhausted := true, busy := false, seq := .idle }

/-- Rule R136: the factorial-table skip, its condition, its reversal and its charge. -/
def Obligations.SkipReversesTheTail : Prop :=
  ∀ (s : State) (l : Nat), s.len.toNat ≤ 256 → TailRunIs s.wbuf s.len.toNat l → SkipCondition true l s.limit →
    ∃ (B : Buffer) (limit' : DWord),
      exec (.sort true) s = .next { s with wbuf := B, limit := limit' } ∧
      limit'.toNat + (l.factorial - 1) = s.limit.toNat ∧
      (∀ k, k < 256 → s.len.toNat - l ≤ k → k < s.len.toNat →
        byteAt B k = byteAt s.wbuf (s.len.toNat - l + (s.len.toNat - 1) - k)) ∧
      (∀ k, k < 256 → (k < s.len.toNat - l ∨ s.len.toNat ≤ k) → byteAt B k = byteAt s.wbuf k)

/-- Rule R137: the standard step: with `i` the last descent and `j` the last index after `i` with a smaller byte
than `B[i]`, bytes `i` and `j` are exchanged, then `i+1..n-1` reversed, and LIMIT goes down by 1. -/
def Obligations.StandardStepMoves : Prop :=
  ∀ (a : Bool) (s : State) (l i j : Nat), s.len.toNat ≤ 256 →
    TailRunIs s.wbuf s.len.toNat l → ¬ SkipCondition a l s.limit → s.limit ≠ 0 →
    i + 1 < s.len.toNat → byteAt s.wbuf (i + 1) < byteAt s.wbuf i →
    (∀ k, i < k → k + 1 < s.len.toNat → ¬ byteAt s.wbuf (k + 1) < byteAt s.wbuf k) →
    i < j → j < s.len.toNat → byteAt s.wbuf j < byteAt s.wbuf i →
    (∀ k, j < k → k < s.len.toNat → ¬ byteAt s.wbuf k < byteAt s.wbuf i) →
    ∃ (B : Buffer) (limit' : DWord) (swapped : Nat → Byte),
      exec (.sort a) s = .next { s with wbuf := B, limit := limit' } ∧
      limit'.toNat + 1 = s.limit.toNat ∧
      swapped i = byteAt s.wbuf j ∧ swapped j = byteAt s.wbuf i ∧
      (∀ k, k ≠ i → k ≠ j → swapped k = byteAt s.wbuf k) ∧
      (∀ k, i < k → k < s.len.toNat → byteAt B k = swapped (i + 1 + (s.len.toNat - 1) - k)) ∧
      (∀ k, k < 256 → (k ≤ i ∨ s.len.toNat ≤ k) → byteAt B k = swapped k)

/-- Rule R138, an inference the spec marks as its own: in a standard step both indices exist and
`i < j ≤ n-1`. -/
def Obligations.StandardStepIndicesExist : Prop :=
  ∀ (B : Buffer) (n : Nat), isSorted B n = false →
    ∃ i j, descentIndex B n = some i ∧ smallerIndex B n i = some j ∧ i < j ∧ j + 1 ≤ n

/-- Rule R140: with A = 0 every iteration that does not stop is a standard step and charges exactly 1. -/
def Obligations.SortNaChargesOne : Prop :=
  ∀ s : State, ¬ NonDecreasing s.wbuf s.len.toNat → s.limit ≠ 0 →
    ∃ limit' : DWord, exec (.sort false) s =
        .next { s with wbuf := predecessor s.wbuf s.len.toNat, limit := limit' } ∧
      limit'.toNat + 1 = s.limit.toNat

/-- Rule R141: the ROM is read only for lengths 3 to 20, and then gives `l! - 1` as the charge. -/
def Obligations.StepCountReadInBounds : Prop :=
  ∀ l : Nat, ((∃ c, skipCharge l = some c) ↔ (2 < l ∧ l < 21)) ∧
    ∀ c, skipCharge l = some c → c.toNat = l.factorial - 1

/-- Rule R142, an inference the spec marks as its own: a skip of length `l` has the same effect as `l! - 1`
standard steps, none of which stops the SORT. -/
def Obligations.SkipEqualsStandardSteps : Prop :=
  ∀ (s t : State) (l : Nat), s.len.toNat ≤ 256 → s.seq = .run (.sort false) →
    TailRunIs s.wbuf s.len.toNat l → SkipCondition true l s.limit →
    exec (.sort true) s = .next t → engineRun (l.factorial - 1) s = .next t

/-- Rule R143, an inference the spec marks as its own ("acceleration must never change the final result, only the
path length"): SORT and SORT.NA end in the same state. -/
def Obligations.AccelerationKeepsTheResult : Prop :=
  ∀ s : State, s.len.toNat ≤ 256 →
    ∃ t, t.seq = .idle ∧
      engineRun (s.limit.toNat + 1) (latchCommand (.sort true) s) = .next t ∧
      engineRun (s.limit.toNat + 1) (latchCommand (.sort false) s) = .next t

/-- Rule R144, an inference the spec marks as its own: the closed form of a SORT. -/
def Obligations.SortClosedForm : Prop :=
  ∀ (a : Bool) (s : State), s.len.toNat ≤ 256 →
    ∃ t, engineRun (s.limit.toNat + 1) (latchCommand (.sort a) s) = .next t ∧ t.seq = .idle ∧
      t.sequence.Perm s.sequence ∧
      rank t.sequence = rank s.sequence - min s.limit.toNat (rank s.sequence) ∧
      t.limit.toNat = s.limit.toNat - min s.limit.toNat (rank s.sequence) ∧
      (t.sorted = true ↔ rank s.sequence ≤ s.limit.toNat) ∧
      (t.exhausted = true ↔ ¬ rank s.sequence ≤ s.limit.toNat)

/-- Rule R145, an inference the spec marks as its own: every SORT finishes after at most LIMIT + 1 engine steps,
each step before the last lowering LIMIT, with exactly one of SORTED and EXHAUSTED set; and what it leaves
unchanged (rule R139). -/
def Obligations.SortFinishes : Prop :=
  ∀ (a : Bool) (s : State), s.seq = .run (.sort a) → s.sorted = false → s.exhausted = false →
    ∃ k t, 1 ≤ k ∧ k ≤ s.limit.toNat + 1 ∧ engineRun k s = .next t ∧
      (∀ m u, m < k → engineRun m s = .next u → u.seq = .run (.sort a) ∧ u.limit.toNat + m ≤ s.limit.toNat) ∧
      t = { s with
        wbuf := t.wbuf, limit := t.limit, sorted := t.sorted, exhausted := t.exhausted
        busy := false, seq := .idle } ∧
      (t.exhausted = !t.sorted) ∧ (t.exhausted = true → t.limit = 0) ∧
      (t.sorted = true ↔ NonDecreasing t.wbuf t.len.toNat)

/-- Rule R146, an inference the spec marks as its own: at every point of a SORT its sequence is an arrangement of
the bytes it started with, and no byte at LEN or above has changed. -/
def Obligations.SortPermutesItsSequence : Prop :=
  ∀ (a : Bool) (s t : State) (k : Nat), s.len.toNat ≤ 256 → s.seq = .run (.sort a) → engineRun k s = .next t →
    t.sequence.Perm s.sequence ∧ ∀ j, j < 256 → s.len.toNat ≤ j → byteAt t.wbuf j = byteAt s.wbuf j

/-- Rule R147, first half, an inference the spec marks as its own: for at most 20 distinct bytes and the maximum
LIMIT a SORT ends SORTED, with the ascending sequence. -/
def Obligations.MaximumLimitSortsTwentyBytes : Prop :=
  ∀ (a : Bool) (s : State), s.len.toNat ≤ 20 → s.sequence.Nodup → s.limit = 0xffffffffffffffff →
    ∃ k t, engineRun k (latchCommand (.sort a) s) = .next t ∧ t.seq = .idle ∧ t.sorted = true ∧
      NonDecreasing t.wbuf t.len.toNat

/-- Rule R147, second half, an inference the spec marks as its own: the 21-byte descending sequence with the
maximum LIMIT ends EXHAUSTED. -/
def Obligations.TwentyOneDescendingExhausts : Prop :=
  ∀ (a : Bool) (s : State), s.len = 21 → s.limit = 0xffffffffffffffff →
    (∀ k, k < 21 → byteAt s.wbuf k = BitVec.ofNat 8 (20 - k)) →
    ∃ k t, engineRun k (latchCommand (.sort a) s) = .next t ∧ t.seq = .idle ∧ t.exhausted = true

/-- Rule R148: the standard step moves the sequence to its lexicographic predecessor: a smaller arrangement of
the same bytes with no arrangement between. -/
def Obligations.StandardStepIsPredecessor : Prop :=
  ∀ (a : Bool) (s : State) (l : Nat), s.len.toNat ≤ 256 → ¬ NonDecreasing s.wbuf s.len.toNat → s.limit ≠ 0 →
    TailRunIs s.wbuf s.len.toNat l → ¬ SkipCondition a l s.limit →
    ∃ t, exec (.sort a) s = .next t ∧ t.sequence.Perm s.sequence ∧ t.sequence < s.sequence ∧
      ∀ ys : List Byte, ys.Perm s.sequence → ys < s.sequence → ys ≤ t.sequence

/-! ## Rules of the whole machine -/

/-- Every step keeps the invariant. -/
def Obligations.StepKeepsInvariant : Prop :=
  ∀ s t : State, s.Inv → step s = .next t → t.Inv

/-- The invariant holds after reset. -/
def Obligations.ResetMeetsInvariant : Prop := State.reset.Inv

/-- Rules R25, R26 and R27: who writes G, PERM and WBUF. G is replaced only by SEED, GEN and reset; PERM only by GEN
and reset; WBUF only by LOADC, SORT, the host and reset. -/
def Obligations.WritersOfTheBuffers : Prop :=
  ∀ s t : State, step s = .next t → nextMove s ≠ .reset → nextMove s ≠ .resetOverAccess →
    (t.g ≠ s.g → nextMove s = .engine ∧ (s.seq = .run .seed ∨ s.seq = .run .gen)) ∧
    (t.perm ≠ s.perm → nextMove s = .engine ∧ s.seq = .run .gen) ∧
    (t.wbuf ≠ s.wbuf → (nextMove s = .engine ∧ (s.seq = .run .loadc ∨ ∃ a, s.seq = .run (.sort a))) ∨
      (nextMove s = .host ∧ s.busy = false))

/-- Rules R22, R23 and R24: the engine never writes SEED or LEN; LIMIT is written by GEN, by SORT, by the host while
BUSY = 0, and by reset. -/
def Obligations.WritersOfTheRegisters : Prop :=
  ∀ s t : State, step s = .next t → nextMove s ≠ .reset → nextMove s ≠ .resetOverAccess →
    (t.seed ≠ s.seed → nextMove s = .host ∧ s.busy = false) ∧
    (t.len ≠ s.len → nextMove s = .host ∧ s.busy = false) ∧
    (t.limit ≠ s.limit → (nextMove s = .engine ∧ (s.seq = .run .gen ∨ ∃ a, s.seq = .run (.sort a))) ∨
      (nextMove s = .host ∧ s.busy = false))

/-- Rules R31, R32 and R33: who writes the status bits. SEEDED is set only by SEED's engine step and never cleared
but by reset; SORTED and EXHAUSTED are set only by the engine step of a SORT and cleared only by an acceptance;
ERR is cleared only by CLRERR and set only by a host access. -/
def Obligations.WritersOfTheStatusBits : Prop :=
  ∀ s t : State, step s = .next t → nextMove s ≠ .reset → nextMove s ≠ .resetOverAccess →
    (t.seeded ≠ s.seeded → t.seeded = true ∧ nextMove s = .engine ∧ s.seq = .run .seed) ∧
    (t.sorted ≠ s.sorted → (t.sorted = true ∧ nextMove s = .engine ∧ ∃ a, s.seq = .run (.sort a)) ∨
      (t.sorted = false ∧ nextMove s = .host ∧ ∃ a, t.seq = .run (.sort a))) ∧
    (t.exhausted ≠ s.exhausted → (t.exhausted = true ∧ nextMove s = .engine ∧ ∃ a, s.seq = .run (.sort a)) ∨
      (t.exhausted = false ∧ nextMove s = .host ∧ ∃ a, t.seq = .run (.sort a))) ∧
    (t.err ≠ s.err → (t.err = 0 ∧ nextMove s = .engine ∧ s.seq = .run .clrerr) ∨
      (t.err ≠ 0 ∧ nextMove s = .host))

/-- Rules R206 and R249: under the model's fair interleaving (log entry 5) every accepted command finishes, whatever
moves are prescribed first. -/
def Obligations.EveryAcceptedCommandFinishes : Prop :=
  ∀ (s : State) (i : Instr), s.Inv → s.seq = .run i →
    ∃ k t, k ≤ s.sched.length + s.limit.toNat + 1 ∧ Host.Core.run Sys2Proof.core k s = .next t ∧ t.seq = .idle

/-! ## Reset -/

/-- Rule R241 (and R240): reset abandons a running command without finishing it and gives every register its reset
value; G, PERM and WBUF get free values (log entry 4). -/
def Obligations.ResetAbandonsTheCommand : Prop :=
  ∀ s : State, ∃ t, step s.resetNext = .next t ∧
    t.seq = .idle ∧ t.seed = 0 ∧ t.len = 0 ∧ t.limit = 0 ∧ statusWord t = 0x00000000 ∧
    t.g = Config.resetG s.draws ∧
    (∀ k, k < 256 → byteAt t.perm k = Config.resetPermByte s.draws k ∧
      byteAt t.wbuf k = Config.resetWbufByte s.draws k) ∧
    t.host = s.host ∧ t.sched = s.sched

/-- Rules R205 and R240: reset takes precedence over the access it coincides with: the block is as after reset,
and the access has raised no error. The host has made its step; what a lost read returns is free (log entry 8). -/
def Obligations.ResetBeatsAnAccess : Prop :=
  ∀ (s : State) (a : WordAddr) (v : Word),
    step (s.resetOverNext (.wr a v)) = step s.resetNext ∧
    (∃ t u x, step (s.resetOverNext (.rd a)) = .next t ∧ step { s with draws := s.draws + 1 }.resetNext = .next u ∧
      t = { u with host := { s.host with reads := (a, x) :: s.host.reads } })

/-- Rule R242: after reset the engine is idle and does nothing; SEED, LEN, LIMIT and STATUS are 0 (rule R241). -/
def Obligations.ResetValues : Prop :=
  State.reset.seq = .idle ∧ State.reset.busy = false ∧ State.reset.seed = 0 ∧ State.reset.len = 0 ∧
  State.reset.limit = 0 ∧ statusWord State.reset = 0x00000000 ∧
  step State.reset.engineNext = .next State.reset

/-! ## The keystream procedure -/

/-- Rules R170 and R172 to R174: from any idle state, the host procedure KEYSTREAM run on the machine ends with the
key of the source's `derive(seed, N)`; the host waits for each command (log entry 5). -/
def Obligations.KeystreamProcedureDerives : Prop :=
  ∀ (s : State) (seed : DWord) (n : Nat) (p rest : List HostOp), s.seq = .idle → s.busy = false →
    keystreamProgram seed n = some p →
    ∃ k t, Host.Core.run Sys2Proof.core k (s.withProgram (p ++ rest)) = .next t ∧ t.host.prog = rest ∧
      t.host.key = derive Config.prng seed n

/-- Rule R175, an inference the spec marks as its own: whatever the interleaving of host and engine, when the
procedure has been carried out the key depends on the seed, the length and the generator only. -/
def Obligations.KeystreamIndependentOfInterleaving : Prop :=
  ∀ (s t : State) (seed : DWord) (n k : Nat) (p : List HostOp), s.seq = .idle → s.busy = false →
    keystreamProgram seed n = some p → s.host.prog = p →
    (∀ m, m ∈ s.sched → m = .host ∨ m = .engine) →
    Host.Core.run Sys2Proof.core k s = .next t → t.host.prog = [] →
    t.host.key = derive Config.prng seed n

/-- Rule R171: a length of 0 to 256 has a keystream program; one above 256 has none, and SFYP rejects it as a LEN
value with BAD_VALUE. -/
def Obligations.KeystreamLengthBound : Prop :=
  ∀ (seed : DWord) (n : Nat),
    (n ≤ 256 → ∃ p, keystreamProgram seed n = some p) ∧
    (256 < n → keystreamProgram seed n = none ∧
      ∀ s : State, s.busy = false → n < 2 ^ 32 → step (s.hostNext (hostWriteLen n)) = .next { s with err := 5 })

/-- Rule R176, an inference the spec marks as its own: XOR with the keystream twice gives the plaintext back, and the
keystream XOR itself is all zero bytes. -/
def Obligations.KeystreamRoundTrip : Prop :=
  ∀ (P : Prng) (seed : DWord) (n : Nat) (plain : List Byte), n ≤ 256 → plain.length = n →
    xorBytes (xorBytes plain (derive P seed n)) (derive P seed n) = plain ∧
    xorBytes (derive P seed n) (derive P seed n) = List.replicate n 0
end

