-- ==== Sys2Proof/Laws/Buffer.lean ====
section
/-! SUPPORT. The buffers: every operation on a buffer said byte by byte, two buffers equal when their bytes are,
and the moves of the engine as permutations of the bytes. -/

namespace Sys2Proof.Machine

theorem byteAt_tabulate (f : Nat → Byte) (k : Nat) : byteAt (tabulate f) k = if k < 256 then f k else 0 := by
  by_cases h : k < 256 <;> simp [byteAt, tabulate, h]

theorem byteAt_tabulate_lt {f : Nat → Byte} {k : Nat} (h : k < 256) : byteAt (tabulate f) k = f k := by
  simp [byteAt_tabulate, h]

theorem byteAt_outside (B : Buffer) {k : Nat} (h : 256 ≤ k) : byteAt B k = 0 := by
  simp [byteAt, h]

theorem byteAt_getElem (B : Buffer) {k : Nat} (h : k < 256) : byteAt B k = B[k] := by
  simp [byteAt, h]

theorem byteAt_ofFn (f : Fin 256 → Byte) {k : Nat} (h : k < 256) :
    byteAt (Vector.ofFn f) k = f ⟨k, h⟩ := by
  rw [byteAt_getElem _ h]; simp

/-- Two buffers with the same 256 bytes are the same buffer. -/
theorem buffer_ext {B C : Buffer} (h : ∀ k, k < 256 → byteAt B k = byteAt C k) : B = C := by
  apply Vector.ext
  intro k hk
  simpa [byteAt_getElem _ hk] using h k hk

theorem tabulate_byteAt (B : Buffer) : tabulate (byteAt B) = B :=
  buffer_ext fun _ hk => byteAt_tabulate_lt hk

@[simp] theorem byteAt_identityBuffer {k : Nat} (h : k < 256) :
    byteAt identityBuffer k = BitVec.ofNat 8 k := byteAt_tabulate_lt h

theorem byteAt_swapBytes (B : Buffer) (p q : Nat) {k : Nat} (h : k < 256) :
    byteAt (swapBytes B p q) k = if k = p then byteAt B q else if k = q then byteAt B p else byteAt B k :=
  byteAt_tabulate_lt h

theorem byteAt_reverseBytes (B : Buffer) (a b : Nat) {k : Nat} (h : k < 256) :
    byteAt (reverseBytes B a b) k = if a ≤ k ∧ k ≤ b then byteAt B (a + b - k) else byteAt B k :=
  byteAt_tabulate_lt h

theorem byteAt_storeWord (B : Buffer) (w : Nat) (v : Word) {k : Nat} (h : k < 256) :
    byteAt (storeWord B w v) k = if k / 4 = w then wordByte v (k % 4) else byteAt B k :=
  byteAt_tabulate_lt h

theorem byteAt_copyPrefix (n : Nat) (P W : Buffer) {k : Nat} (h : k < 256) :
    byteAt (copyPrefix n P W) k = if k < n then byteAt P k else byteAt W k :=
  byteAt_tabulate_lt h

/-- Swapping an index with itself changes nothing (rule R10, rule R104). -/
theorem swapBytes_self (B : Buffer) (p : Nat) : swapBytes B p p = B := by
  apply buffer_ext
  intro k hk
  rw [byteAt_swapBytes _ _ _ hk]
  split <;> simp_all

/-- The bytes of a buffer as a list, by index. -/
theorem toList_eq_map (B : Buffer) : B.toList = (List.range 256).map (byteAt B) := by
  apply List.ext_getElem
  · simp
  · intro k h1 h2
    have hk : k < 256 := by simpa using h1
    simp [byteAt_getElem _ hk]

theorem prefixOf_eq_map (B : Buffer) (n : Nat) (h : n ≤ 256) :
    prefixOf B n = (List.range n).map (byteAt B) := by
  rw [prefixOf, toList_eq_map, ← List.map_take, List.take_range, min_eq_left h]

theorem prefixOf_length (B : Buffer) (n : Nat) (h : n ≤ 256) : (prefixOf B n).length = n := by
  simp [prefixOf_eq_map B n h]

/-- Rearranging the indices below `n` by an injective map rearranges the prefix. -/
theorem prefixOf_perm_of_reindex {B C : Buffer} {n : Nat} (hn : n ≤ 256) (σ : Nat → Nat)
    (maps : ∀ k, k < n → σ k < n) (inj : ∀ k l, k < n → l < n → σ k = σ l → k = l)
    (h : ∀ k, k < n → byteAt C k = byteAt B (σ k)) : (prefixOf C n).Perm (prefixOf B n) := by
  rw [prefixOf_eq_map C n hn, prefixOf_eq_map B n hn]
  have e : (List.range n).map (byteAt C) = ((List.range n).map σ).map (byteAt B) := by
    rw [List.map_map]
    exact List.map_congr_left fun k hk => h k (List.mem_range.1 hk)
  rw [e]
  apply List.Perm.map
  have nd : ((List.range n).map σ).Nodup :=
    List.Nodup.map_on (fun x hx y hy => inj x y (List.mem_range.1 hx) (List.mem_range.1 hy)) List.nodup_range
  refine (List.perm_ext_iff_of_nodup nd List.nodup_range).2 fun x => ?_
  have sub : ((List.range n).map σ).toFinset ⊆ (List.range n).toFinset := by
    intro y hy
    simp only [List.mem_toFinset, List.mem_map, List.mem_range] at hy ⊢
    obtain ⟨k, hk, rfl⟩ := hy
    exact maps k hk
  have card : ((List.range n).map σ).toFinset.card = (List.range n).toFinset.card := by
    rw [List.toFinset_card_of_nodup nd, List.toFinset_card_of_nodup List.nodup_range]; simp
  have := Finset.eq_of_subset_of_card_le sub card.ge
  simpa using Finset.ext_iff.1 this x

theorem swapBytes_prefix_perm (B : Buffer) (p q n : Nat) (hn : n ≤ 256) (hp : p < n) (hq : q < n) :
    (prefixOf (swapBytes B p q) n).Perm (prefixOf B n) := by
  refine prefixOf_perm_of_reindex hn (fun k => if k = p then q else if k = q then p else k) ?_ ?_ ?_
  · intro k hk; split_ifs <;> omega
  · intro k l hk hl h; split_ifs at h <;> omega
  · intro k hk
    rw [byteAt_swapBytes _ _ _ (by omega)]
    split_ifs <;> rfl

theorem reverseBytes_prefix_perm (B : Buffer) (a b n : Nat) (hn : n ≤ 256) (hb : b < n) :
    (prefixOf (reverseBytes B a b) n).Perm (prefixOf B n) := by
  refine prefixOf_perm_of_reindex hn (fun k => if a ≤ k ∧ k ≤ b then a + b - k else k) ?_ ?_ ?_
  · intro k hk; split_ifs <;> omega
  · intro k l hk hl h; split_ifs at h <;> omega
  · intro k hk
    rw [byteAt_reverseBytes _ _ _ (by omega)]
    split_ifs <;> rfl

end Sys2Proof.Machine
end

