-- ==== Sys2Proof/Laws/Operands.lean ====
section
/-! SUPPORT. The register map and the packing of words: which offsets select what (rule R51), and that taking a
register or a word apart undoes putting it together (rule R53, rule R54). -/

namespace Sys2Proof.Machine

theorem offsetOf_bounds (a : WordAddr) : offsetOf a < 1024 ∧ offsetOf a % 4 = 0 := by
  unfold offsetOf; omega

theorem offsetOf_wordOf {off : Nat} (h : off < 1024) (h4 : off % 4 = 0) : offsetOf (wordOf off) = off := by
  simp [offsetOf, wordOf]; omega

theorem wordOf_offsetOf (a : WordAddr) : wordOf (offsetOf a) = a := by
  simp [offsetOf, wordOf]

/-- The register map by cases (rule R51). -/
theorem regionAt_cases (off : Nat) :
    (off = 0x000 ∧ regionAt off = .cmd) ∨ (off = 0x004 ∧ regionAt off = .status) ∨
    (off = 0x008 ∧ regionAt off = .seedLo) ∨ (off = 0x00C ∧ regionAt off = .seedHi) ∨
    (off = 0x010 ∧ regionAt off = .len) ∨ (off = 0x014 ∧ regionAt off = .limitLo) ∨
    (off = 0x018 ∧ regionAt off = .limitHi) ∨
    (0x100 ≤ off ∧ off ≤ 0x1FC ∧ regionAt off = .perm ((off - 0x100) / 4)) ∨
    (0x200 ≤ off ∧ off ≤ 0x2FC ∧ regionAt off = .wbuf ((off - 0x200) / 4)) ∨
    (0x300 ≤ off ∧ off ≤ 0x3A4 ∧ regionAt off = .stepc ((off - 0x300) / 4)) ∨
    (off ∉ [0x000, 0x004, 0x008, 0x00C, 0x010, 0x014, 0x018] ∧ ¬ (0x100 ≤ off ∧ off ≤ 0x1FC) ∧
      ¬ (0x200 ≤ off ∧ off ≤ 0x2FC) ∧ ¬ (0x300 ≤ off ∧ off ≤ 0x3A4) ∧ regionAt off = .unmapped) := by
  by_cases h0 : off = 0x000
  · subst h0; exact .inl ⟨rfl, rfl⟩
  by_cases h1 : off = 0x004
  · subst h1; exact .inr (.inl ⟨rfl, rfl⟩)
  by_cases h2 : off = 0x008
  · subst h2; exact .inr (.inr (.inl ⟨rfl, rfl⟩))
  by_cases h3 : off = 0x00C
  · subst h3; exact .inr (.inr (.inr (.inl ⟨rfl, rfl⟩)))
  by_cases h4 : off = 0x010
  · subst h4; exact .inr (.inr (.inr (.inr (.inl ⟨rfl, rfl⟩))))
  by_cases h5 : off = 0x014
  · subst h5; exact .inr (.inr (.inr (.inr (.inr (.inl ⟨rfl, rfl⟩)))))
  by_cases h6 : off = 0x018
  · subst h6; exact .inr (.inr (.inr (.inr (.inr (.inr (.inl ⟨rfl, rfl⟩))))))
  refine .inr (.inr (.inr (.inr (.inr (.inr (.inr ?_))))))
  rw [regionAt, if_neg h0, if_neg h1, if_neg h2, if_neg h3, if_neg h4, if_neg h5, if_neg h6]
  by_cases h7 : 0x100 ≤ off ∧ off ≤ 0x1FC
  · rw [if_pos h7]; exact .inl ⟨h7.1, h7.2, rfl⟩
  rw [if_neg h7]
  by_cases h8 : 0x200 ≤ off ∧ off ≤ 0x2FC
  · rw [if_pos h8]; exact .inr (.inl ⟨h8.1, h8.2, rfl⟩)
  rw [if_neg h8]
  by_cases h9 : 0x300 ≤ off ∧ off ≤ 0x3A4
  · rw [if_pos h9]; exact .inr (.inr (.inl ⟨h9.1, h9.2, rfl⟩))
  rw [if_neg h9]
  exact .inr (.inr (.inr ⟨by simp [h0, h1, h2, h3, h4, h5, h6], h7, h8, h9, rfl⟩))

/-- The register map on the offsets of words, in the form the lemmas below need. -/
theorem regionOf_spec (a : WordAddr) :
    (regionOf a = .cmd ↔ offsetOf a = 0x000) ∧ (regionOf a = .len ↔ offsetOf a = 0x010) ∧
    ((regionOf a).writable = false ↔
      offsetOf a = 0x004 ∨ (0x01C ≤ offsetOf a ∧ offsetOf a ≤ 0x1FC) ∨ 0x300 ≤ offsetOf a) ∧
    ((regionOf a).engineOwned = true ↔
      (0x014 ≤ offsetOf a ∧ offsetOf a ≤ 0x018) ∨ (0x100 ≤ offsetOf a ∧ offsetOf a ≤ 0x2FC)) := by
  have hb := offsetOf_bounds a
  unfold regionOf
  generalize offsetOf a = off at hb
  rcases regionAt_cases off with ⟨h, e⟩ | ⟨h, e⟩ | ⟨h, e⟩ | ⟨h, e⟩ | ⟨h, e⟩ | ⟨h, e⟩ | ⟨h, e⟩ | ⟨h, h', e⟩ |
    ⟨h, h', e⟩ | ⟨h, h', e⟩ | ⟨h, h1, h2, h3, e⟩
  all_goals
    rw [e]
    simp only [Region.writable, Region.engineOwned, reduceCtorEq, Bool.false_eq_true, false_iff, true_iff]
    first | omega | (simp only [List.mem_cons, List.not_mem_nil, not_or] at h; omega)

theorem regionOf_eq_cmd {a : WordAddr} : regionOf a = .cmd ↔ offsetOf a = 0 := (regionOf_spec a).1

theorem regionOf_eq_len {a : WordAddr} : regionOf a = .len ↔ offsetOf a = 0x010 := (regionOf_spec a).2.1

/-- The words a host may not write (rule R59). -/
theorem regionOf_not_writable {a : WordAddr} : (regionOf a).writable = false ↔
    offsetOf a = 0x004 ∨ (0x01C ≤ offsetOf a ∧ offsetOf a ≤ 0x1FC) ∨ 0x300 ≤ offsetOf a := (regionOf_spec a).2.2.1

/-- The words whose reads are free while BUSY = 1 (rule R56). -/
theorem regionOf_engineOwned {a : WordAddr} : (regionOf a).engineOwned = true ↔
    (0x014 ≤ offsetOf a ∧ offsetOf a ≤ 0x018) ∨ (0x100 ≤ offsetOf a ∧ offsetOf a ≤ 0x2FC) := (regionOf_spec a).2.2.2

theorem regionAt_perm {off : Nat} (h : 0x100 ≤ off ∧ off ≤ 0x1FC) : regionAt off = .perm ((off - 0x100) / 4) := by
  rcases regionAt_cases off with ⟨h, e⟩ | ⟨h, e⟩ | ⟨h, e⟩ | ⟨h, e⟩ | ⟨h, e⟩ | ⟨h, e⟩ | ⟨h, e⟩ | ⟨h, h', e⟩ |
    ⟨h, h', e⟩ | ⟨h, h', e⟩ | ⟨h, h1, h2, h3, e⟩
  all_goals first | exact e | (exfalso; omega)

theorem regionAt_wbuf {off : Nat} (h : 0x200 ≤ off ∧ off ≤ 0x2FC) : regionAt off = .wbuf ((off - 0x200) / 4) := by
  rcases regionAt_cases off with ⟨h, e⟩ | ⟨h, e⟩ | ⟨h, e⟩ | ⟨h, e⟩ | ⟨h, e⟩ | ⟨h, e⟩ | ⟨h, e⟩ | ⟨h, h', e⟩ |
    ⟨h, h', e⟩ | ⟨h, h', e⟩ | ⟨h, h1, h2, h3, e⟩
  all_goals first | exact e | (exfalso; omega)

theorem regionAt_stepc {off : Nat} (h : 0x300 ≤ off ∧ off ≤ 0x3A4) : regionAt off = .stepc ((off - 0x300) / 4) := by
  rcases regionAt_cases off with ⟨h, e⟩ | ⟨h, e⟩ | ⟨h, e⟩ | ⟨h, e⟩ | ⟨h, e⟩ | ⟨h, e⟩ | ⟨h, e⟩ | ⟨h, h', e⟩ |
    ⟨h, h', e⟩ | ⟨h, h', e⟩ | ⟨h, h1, h2, h3, e⟩
  all_goals first | exact e | (exfalso; omega)

theorem regionAt_unmapped {off : Nat} (h : (0x01C ≤ off ∧ off ≤ 0x0FC) ∨ 0x3A8 ≤ off) :
    regionAt off = .unmapped := by
  rcases regionAt_cases off with ⟨h, e⟩ | ⟨h, e⟩ | ⟨h, e⟩ | ⟨h, e⟩ | ⟨h, e⟩ | ⟨h, e⟩ | ⟨h, e⟩ | ⟨h, h', e⟩ |
    ⟨h, h', e⟩ | ⟨h, h', e⟩ | ⟨h, h1, h2, h3, e⟩
  all_goals first | exact e | (exfalso; omega)

theorem regionOf_wbuf {w : Nat} (h : w < 64) : regionOf (wordOf (0x200 + 4 * w)) = .wbuf w := by
  rw [regionOf, offsetOf_wordOf (by omega) (by omega), regionAt_wbuf (by omega)]
  congr 1; omega

theorem regionOf_perm {w : Nat} (h : w < 64) : regionOf (wordOf (0x100 + 4 * w)) = .perm w := by
  rw [regionOf, offsetOf_wordOf (by omega) (by omega), regionAt_perm (by omega)]
  congr 1; omega

theorem lo32_joinHalves (hi lo : Word) : lo32 (joinHalves hi lo) = lo := by
  apply BitVec.eq_of_getLsbD_eq
  intro k hk
  simp only [lo32, joinHalves, BitVec.getLsbD_extractLsb', BitVec.getLsbD_append]
  simp [hk]

theorem hi32_joinHalves (hi lo : Word) : hi32 (joinHalves hi lo) = hi := by
  apply BitVec.eq_of_getLsbD_eq
  intro k hk
  simp only [hi32, joinHalves, BitVec.getLsbD_extractLsb', BitVec.getLsbD_append]
  simp [hk]

theorem joinHalves_hi32_lo32 (x : DWord) : joinHalves (hi32 x) (lo32 x) = x := by
  apply BitVec.eq_of_getLsbD_eq
  intro k hk
  simp only [hi32, lo32, joinHalves, BitVec.getLsbD_extractLsb', BitVec.getLsbD_append]
  split
  · simp [*]
  · have : 32 + (k - 32) = k := by omega
    simp only [this, Bool.and_eq_right_iff_imp, decide_eq_true_eq]
    omega

/-- Writing both halves of a 64-bit register leaves it holding the value (rule R54, rule R88). -/
theorem withHi_withLo (x v : DWord) : withHi (withLo x (lo32 v)) (hi32 v) = v := by
  rw [withHi, withLo, lo32_joinHalves, joinHalves_hi32_lo32]

theorem wordByte_packBytes (b0 b1 b2 b3 : Byte) :
    wordByte (packBytes b0 b1 b2 b3) 0 = b0 ∧ wordByte (packBytes b0 b1 b2 b3) 1 = b1 ∧
    wordByte (packBytes b0 b1 b2 b3) 2 = b2 ∧ wordByte (packBytes b0 b1 b2 b3) 3 = b3 := by
  refine ⟨?_, ?_, ?_, ?_⟩ <;>
    · apply BitVec.eq_of_getLsbD_eq
      intro k hk
      rw [wordByte, packBytes]
      simp only [BitVec.getLsbD_extractLsb', BitVec.getLsbD_append, hk, decide_true, Bool.true_and]
      repeat' split
      all_goals first | (exfalso; omega) | (congr 1; omega)

/-- Byte `b` of word `w` of a buffer's window is byte `4w + b` of the buffer (rule R53). -/
theorem wordByte_packWord (B : Buffer) (w : Nat) {b : Nat} (h : b < 4) :
    wordByte (packWord B w) b = byteAt B (4 * w + b) := by
  have := wordByte_packBytes (byteAt B (4 * w)) (byteAt B (4 * w + 1)) (byteAt B (4 * w + 2))
    (byteAt B (4 * w + 3))
  obtain rfl | rfl | rfl | rfl : b = 0 ∨ b = 1 ∨ b = 2 ∨ b = 3 := by omega
  exacts [this.1, this.2.1, this.2.2.1, this.2.2.2]

/-- Two words with the same four bytes are the same word. -/
theorem word_ext {v w : Word} (h : ∀ b, b < 4 → wordByte v b = wordByte w b) : v = w := by
  apply BitVec.eq_of_getLsbD_eq
  intro k hk
  have := congrArg (fun x => BitVec.getLsbD x (k % 8)) (h (k / 8) (by omega))
  simp only [wordByte, BitVec.getLsbD_extractLsb'] at this
  have e : 8 * (k / 8) + k % 8 = k := by omega
  have lt : k % 8 < 8 := by omega
  simpa [e, lt] using this

/-- The bytes of a stored word are the word's (rule R53). -/
theorem packWord_storeWord (B : Buffer) {w : Nat} (v : Word) (h : w < 64) :
    packWord (storeWord B w v) w = v := by
  apply word_ext
  intro b hb
  rw [wordByte_packWord _ _ hb, byteAt_storeWord _ _ _ (by omega), if_pos (by omega)]
  congr 1; omega

/-- A store leaves the other words of the window (rule R58). -/
theorem packWord_storeWord_ne (B : Buffer) {w w' : Nat} (v : Word) (h : w' < 64) (hne : w' ≠ w) :
    packWord (storeWord B w v) w' = packWord B w' := by
  apply word_ext
  intro b hb
  rw [wordByte_packWord _ _ hb, wordByte_packWord _ _ hb, byteAt_storeWord _ _ _ (by omega), if_neg (by omega)]

end Sys2Proof.Machine
end

