-- ==== Sys2Proof/Laws/State.lean ====
section
/-! SUPPORT. One lemma per field per named update of the state: what the field holds after it. -/

namespace Sys2Proof.Machine

@[simp] theorem finish_seq (s : State) : (finish s).seq = .idle := rfl
@[simp] theorem finish_seed (s : State) : (finish s).seed = s.seed := rfl
@[simp] theorem finish_len (s : State) : (finish s).len = s.len := rfl
@[simp] theorem finish_limit (s : State) : (finish s).limit = s.limit := rfl
@[simp] theorem finish_g (s : State) : (finish s).g = s.g := rfl
@[simp] theorem finish_perm (s : State) : (finish s).perm = s.perm := rfl
@[simp] theorem finish_wbuf (s : State) : (finish s).wbuf = s.wbuf := rfl
@[simp] theorem finish_busy (s : State) : (finish s).busy = false := rfl
@[simp] theorem finish_sorted (s : State) : (finish s).sorted = s.sorted := rfl
@[simp] theorem finish_exhausted (s : State) : (finish s).exhausted = s.exhausted := rfl
@[simp] theorem finish_seeded (s : State) : (finish s).seeded = s.seeded := rfl
@[simp] theorem finish_err (s : State) : (finish s).err = s.err := rfl
@[simp] theorem finish_host (s : State) : (finish s).host = s.host := rfl
@[simp] theorem finish_sched (s : State) : (finish s).sched = s.sched := rfl
@[simp] theorem finish_draws (s : State) : (finish s).draws = s.draws := rfl

@[simp] theorem markSorted_seq (s : State) : (markSorted s).seq = s.seq := rfl
@[simp] theorem markSorted_seed (s : State) : (markSorted s).seed = s.seed := rfl
@[simp] theorem markSorted_len (s : State) : (markSorted s).len = s.len := rfl
@[simp] theorem markSorted_limit (s : State) : (markSorted s).limit = s.limit := rfl
@[simp] theorem markSorted_g (s : State) : (markSorted s).g = s.g := rfl
@[simp] theorem markSorted_perm (s : State) : (markSorted s).perm = s.perm := rfl
@[simp] theorem markSorted_wbuf (s : State) : (markSorted s).wbuf = s.wbuf := rfl
@[simp] theorem markSorted_busy (s : State) : (markSorted s).busy = s.busy := rfl
@[simp] theorem markSorted_sorted (s : State) : (markSorted s).sorted = true := rfl
@[simp] theorem markSorted_exhausted (s : State) : (markSorted s).exhausted = s.exhausted := rfl
@[simp] theorem markSorted_seeded (s : State) : (markSorted s).seeded = s.seeded := rfl
@[simp] theorem markSorted_err (s : State) : (markSorted s).err = s.err := rfl
@[simp] theorem markSorted_host (s : State) : (markSorted s).host = s.host := rfl
@[simp] theorem markSorted_sched (s : State) : (markSorted s).sched = s.sched := rfl
@[simp] theorem markSorted_draws (s : State) : (markSorted s).draws = s.draws := rfl

@[simp] theorem markExhausted_seq (s : State) : (markExhausted s).seq = s.seq := rfl
@[simp] theorem markExhausted_seed (s : State) : (markExhausted s).seed = s.seed := rfl
@[simp] theorem markExhausted_len (s : State) : (markExhausted s).len = s.len := rfl
@[simp] theorem markExhausted_limit (s : State) : (markExhausted s).limit = s.limit := rfl
@[simp] theorem markExhausted_g (s : State) : (markExhausted s).g = s.g := rfl
@[simp] theorem markExhausted_perm (s : State) : (markExhausted s).perm = s.perm := rfl
@[simp] theorem markExhausted_wbuf (s : State) : (markExhausted s).wbuf = s.wbuf := rfl
@[simp] theorem markExhausted_busy (s : State) : (markExhausted s).busy = s.busy := rfl
@[simp] theorem markExhausted_sorted (s : State) : (markExhausted s).sorted = s.sorted := rfl
@[simp] theorem markExhausted_exhausted (s : State) : (markExhausted s).exhausted = true := rfl
@[simp] theorem markExhausted_seeded (s : State) : (markExhausted s).seeded = s.seeded := rfl
@[simp] theorem markExhausted_err (s : State) : (markExhausted s).err = s.err := rfl
@[simp] theorem markExhausted_host (s : State) : (markExhausted s).host = s.host := rfl
@[simp] theorem markExhausted_sched (s : State) : (markExhausted s).sched = s.sched := rfl
@[simp] theorem markExhausted_draws (s : State) : (markExhausted s).draws = s.draws := rfl

@[simp] theorem raiseError_seq (e : ErrCode) (s : State) : (raiseError e s).seq = s.seq := rfl
@[simp] theorem raiseError_seed (e : ErrCode) (s : State) : (raiseError e s).seed = s.seed := rfl
@[simp] theorem raiseError_len (e : ErrCode) (s : State) : (raiseError e s).len = s.len := rfl
@[simp] theorem raiseError_limit (e : ErrCode) (s : State) : (raiseError e s).limit = s.limit := rfl
@[simp] theorem raiseError_g (e : ErrCode) (s : State) : (raiseError e s).g = s.g := rfl
@[simp] theorem raiseError_perm (e : ErrCode) (s : State) : (raiseError e s).perm = s.perm := rfl
@[simp] theorem raiseError_wbuf (e : ErrCode) (s : State) : (raiseError e s).wbuf = s.wbuf := rfl
@[simp] theorem raiseError_busy (e : ErrCode) (s : State) : (raiseError e s).busy = s.busy := rfl
@[simp] theorem raiseError_sorted (e : ErrCode) (s : State) : (raiseError e s).sorted = s.sorted := rfl
@[simp] theorem raiseError_exhausted (e : ErrCode) (s : State) : (raiseError e s).exhausted = s.exhausted := rfl
@[simp] theorem raiseError_seeded (e : ErrCode) (s : State) : (raiseError e s).seeded = s.seeded := rfl
@[simp] theorem raiseError_err (e : ErrCode) (s : State) : (raiseError e s).err = e.code := rfl
@[simp] theorem raiseError_host (e : ErrCode) (s : State) : (raiseError e s).host = s.host := rfl
@[simp] theorem raiseError_sched (e : ErrCode) (s : State) : (raiseError e s).sched = s.sched := rfl
@[simp] theorem raiseError_draws (e : ErrCode) (s : State) : (raiseError e s).draws = s.draws := rfl

@[simp] theorem latchCommand_seq (i : Instr) (s : State) : (latchCommand i s).seq = .run i := rfl
@[simp] theorem latchCommand_seed (i : Instr) (s : State) : (latchCommand i s).seed = s.seed := rfl
@[simp] theorem latchCommand_len (i : Instr) (s : State) : (latchCommand i s).len = s.len := rfl
@[simp] theorem latchCommand_limit (i : Instr) (s : State) : (latchCommand i s).limit = s.limit := rfl
@[simp] theorem latchCommand_g (i : Instr) (s : State) : (latchCommand i s).g = s.g := rfl
@[simp] theorem latchCommand_perm (i : Instr) (s : State) : (latchCommand i s).perm = s.perm := rfl
@[simp] theorem latchCommand_wbuf (i : Instr) (s : State) : (latchCommand i s).wbuf = s.wbuf := rfl
@[simp] theorem latchCommand_busy (i : Instr) (s : State) : (latchCommand i s).busy = true := rfl
@[simp] theorem latchCommand_sorted (i : Instr) (s : State) : (latchCommand i s).sorted = (s.sorted && !isSort i) := rfl
@[simp] theorem latchCommand_exhausted (i : Instr) (s : State) : (latchCommand i s).exhausted = (s.exhausted && !isSort i) := rfl
@[simp] theorem latchCommand_seeded (i : Instr) (s : State) : (latchCommand i s).seeded = s.seeded := rfl
@[simp] theorem latchCommand_err (i : Instr) (s : State) : (latchCommand i s).err = s.err := rfl
@[simp] theorem latchCommand_host (i : Instr) (s : State) : (latchCommand i s).host = s.host := rfl
@[simp] theorem latchCommand_sched (i : Instr) (s : State) : (latchCommand i s).sched = s.sched := rfl
@[simp] theorem latchCommand_draws (i : Instr) (s : State) : (latchCommand i s).draws = s.draws := rfl

@[simp] theorem popMove_seq (s : State) : (popMove s).seq = s.seq := rfl
@[simp] theorem popMove_seed (s : State) : (popMove s).seed = s.seed := rfl
@[simp] theorem popMove_len (s : State) : (popMove s).len = s.len := rfl
@[simp] theorem popMove_limit (s : State) : (popMove s).limit = s.limit := rfl
@[simp] theorem popMove_g (s : State) : (popMove s).g = s.g := rfl
@[simp] theorem popMove_perm (s : State) : (popMove s).perm = s.perm := rfl
@[simp] theorem popMove_wbuf (s : State) : (popMove s).wbuf = s.wbuf := rfl
@[simp] theorem popMove_busy (s : State) : (popMove s).busy = s.busy := rfl
@[simp] theorem popMove_sorted (s : State) : (popMove s).sorted = s.sorted := rfl
@[simp] theorem popMove_exhausted (s : State) : (popMove s).exhausted = s.exhausted := rfl
@[simp] theorem popMove_seeded (s : State) : (popMove s).seeded = s.seeded := rfl
@[simp] theorem popMove_err (s : State) : (popMove s).err = s.err := rfl
@[simp] theorem popMove_host (s : State) : (popMove s).host = s.host := rfl
@[simp] theorem popMove_sched (s : State) : (popMove s).sched = s.sched.tail := rfl
@[simp] theorem popMove_draws (s : State) : (popMove s).draws = s.draws := rfl

@[simp] theorem hostGoesOn_seq (rest : List HostOp) (s : State) : (hostGoesOn rest s).seq = s.seq := rfl
@[simp] theorem hostGoesOn_seed (rest : List HostOp) (s : State) : (hostGoesOn rest s).seed = s.seed := rfl
@[simp] theorem hostGoesOn_len (rest : List HostOp) (s : State) : (hostGoesOn rest s).len = s.len := rfl
@[simp] theorem hostGoesOn_limit (rest : List HostOp) (s : State) : (hostGoesOn rest s).limit = s.limit := rfl
@[simp] theorem hostGoesOn_g (rest : List HostOp) (s : State) : (hostGoesOn rest s).g = s.g := rfl
@[simp] theorem hostGoesOn_perm (rest : List HostOp) (s : State) : (hostGoesOn rest s).perm = s.perm := rfl
@[simp] theorem hostGoesOn_wbuf (rest : List HostOp) (s : State) : (hostGoesOn rest s).wbuf = s.wbuf := rfl
@[simp] theorem hostGoesOn_busy (rest : List HostOp) (s : State) : (hostGoesOn rest s).busy = s.busy := rfl
@[simp] theorem hostGoesOn_sorted (rest : List HostOp) (s : State) : (hostGoesOn rest s).sorted = s.sorted := rfl
@[simp] theorem hostGoesOn_exhausted (rest : List HostOp) (s : State) : (hostGoesOn rest s).exhausted = s.exhausted := rfl
@[simp] theorem hostGoesOn_seeded (rest : List HostOp) (s : State) : (hostGoesOn rest s).seeded = s.seeded := rfl
@[simp] theorem hostGoesOn_err (rest : List HostOp) (s : State) : (hostGoesOn rest s).err = s.err := rfl
@[simp] theorem hostGoesOn_host (rest : List HostOp) (s : State) : (hostGoesOn rest s).host = { s.host with prog := rest } := rfl
@[simp] theorem hostGoesOn_sched (rest : List HostOp) (s : State) : (hostGoesOn rest s).sched = s.sched := rfl
@[simp] theorem hostGoesOn_draws (rest : List HostOp) (s : State) : (hostGoesOn rest s).draws = s.draws := rfl

@[simp] theorem recordRead_seq (a : WordAddr) (v : Word) (s : State) : (recordRead a v s).seq = s.seq := rfl
@[simp] theorem recordRead_seed (a : WordAddr) (v : Word) (s : State) : (recordRead a v s).seed = s.seed := rfl
@[simp] theorem recordRead_len (a : WordAddr) (v : Word) (s : State) : (recordRead a v s).len = s.len := rfl
@[simp] theorem recordRead_limit (a : WordAddr) (v : Word) (s : State) : (recordRead a v s).limit = s.limit := rfl
@[simp] theorem recordRead_g (a : WordAddr) (v : Word) (s : State) : (recordRead a v s).g = s.g := rfl
@[simp] theorem recordRead_perm (a : WordAddr) (v : Word) (s : State) : (recordRead a v s).perm = s.perm := rfl
@[simp] theorem recordRead_wbuf (a : WordAddr) (v : Word) (s : State) : (recordRead a v s).wbuf = s.wbuf := rfl
@[simp] theorem recordRead_busy (a : WordAddr) (v : Word) (s : State) : (recordRead a v s).busy = s.busy := rfl
@[simp] theorem recordRead_sorted (a : WordAddr) (v : Word) (s : State) : (recordRead a v s).sorted = s.sorted := rfl
@[simp] theorem recordRead_exhausted (a : WordAddr) (v : Word) (s : State) : (recordRead a v s).exhausted = s.exhausted := rfl
@[simp] theorem recordRead_seeded (a : WordAddr) (v : Word) (s : State) : (recordRead a v s).seeded = s.seeded := rfl
@[simp] theorem recordRead_err (a : WordAddr) (v : Word) (s : State) : (recordRead a v s).err = s.err := rfl
@[simp] theorem recordRead_host (a : WordAddr) (v : Word) (s : State) : (recordRead a v s).host = { s.host with reads := (a, v) :: s.host.reads } := rfl
@[simp] theorem recordRead_sched (a : WordAddr) (v : Word) (s : State) : (recordRead a v s).sched = s.sched := rfl
@[simp] theorem recordRead_draws (a : WordAddr) (v : Word) (s : State) : (recordRead a v s).draws = s.draws := rfl

@[simp] theorem freeWord_seq (s : State) : (freeWord s).2.seq = s.seq := rfl
@[simp] theorem freeWord_seed (s : State) : (freeWord s).2.seed = s.seed := rfl
@[simp] theorem freeWord_len (s : State) : (freeWord s).2.len = s.len := rfl
@[simp] theorem freeWord_limit (s : State) : (freeWord s).2.limit = s.limit := rfl
@[simp] theorem freeWord_g (s : State) : (freeWord s).2.g = s.g := rfl
@[simp] theorem freeWord_perm (s : State) : (freeWord s).2.perm = s.perm := rfl
@[simp] theorem freeWord_wbuf (s : State) : (freeWord s).2.wbuf = s.wbuf := rfl
@[simp] theorem freeWord_busy (s : State) : (freeWord s).2.busy = s.busy := rfl
@[simp] theorem freeWord_sorted (s : State) : (freeWord s).2.sorted = s.sorted := rfl
@[simp] theorem freeWord_exhausted (s : State) : (freeWord s).2.exhausted = s.exhausted := rfl
@[simp] theorem freeWord_seeded (s : State) : (freeWord s).2.seeded = s.seeded := rfl
@[simp] theorem freeWord_err (s : State) : (freeWord s).2.err = s.err := rfl
@[simp] theorem freeWord_host (s : State) : (freeWord s).2.host = s.host := rfl
@[simp] theorem freeWord_sched (s : State) : (freeWord s).2.sched = s.sched := rfl
@[simp] theorem freeWord_draws (s : State) : (freeWord s).2.draws = s.draws + 1 := rfl

@[simp] theorem resetBlock_seq (s : State) : (resetBlock s).seq = .idle := rfl
@[simp] theorem resetBlock_seed (s : State) : (resetBlock s).seed = 0 := rfl
@[simp] theorem resetBlock_len (s : State) : (resetBlock s).len = 0 := rfl
@[simp] theorem resetBlock_limit (s : State) : (resetBlock s).limit = 0 := rfl
@[simp] theorem resetBlock_g (s : State) : (resetBlock s).g = Config.resetG s.draws := rfl
@[simp] theorem resetBlock_perm (s : State) : (resetBlock s).perm = Vector.ofFn fun k => Config.resetPermByte s.draws k.val := rfl
@[simp] theorem resetBlock_wbuf (s : State) : (resetBlock s).wbuf = Vector.ofFn fun k => Config.resetWbufByte s.draws k.val := rfl
@[simp] theorem resetBlock_busy (s : State) : (resetBlock s).busy = false := rfl
@[simp] theorem resetBlock_sorted (s : State) : (resetBlock s).sorted = false := rfl
@[simp] theorem resetBlock_exhausted (s : State) : (resetBlock s).exhausted = false := rfl
@[simp] theorem resetBlock_seeded (s : State) : (resetBlock s).seeded = false := rfl
@[simp] theorem resetBlock_err (s : State) : (resetBlock s).err = 0 := rfl
@[simp] theorem resetBlock_host (s : State) : (resetBlock s).host = s.host := rfl
@[simp] theorem resetBlock_sched (s : State) : (resetBlock s).sched = s.sched := rfl
@[simp] theorem resetBlock_draws (s : State) : (resetBlock s).draws = s.draws + 1 := rfl

@[simp] theorem freeWord_value (s : State) : (freeWord s).1 = Config.any32 s.draws := rfl

@[simp] theorem State.hostNext_seq (s : State) (op : HostOp) : (s.hostNext op).seq = s.seq := rfl
@[simp] theorem State.hostNext_seed (s : State) (op : HostOp) : (s.hostNext op).seed = s.seed := rfl
@[simp] theorem State.hostNext_len (s : State) (op : HostOp) : (s.hostNext op).len = s.len := rfl
@[simp] theorem State.hostNext_limit (s : State) (op : HostOp) : (s.hostNext op).limit = s.limit := rfl
@[simp] theorem State.hostNext_g (s : State) (op : HostOp) : (s.hostNext op).g = s.g := rfl
@[simp] theorem State.hostNext_perm (s : State) (op : HostOp) : (s.hostNext op).perm = s.perm := rfl
@[simp] theorem State.hostNext_wbuf (s : State) (op : HostOp) : (s.hostNext op).wbuf = s.wbuf := rfl
@[simp] theorem State.hostNext_busy (s : State) (op : HostOp) : (s.hostNext op).busy = s.busy := rfl
@[simp] theorem State.hostNext_sorted (s : State) (op : HostOp) : (s.hostNext op).sorted = s.sorted := rfl
@[simp] theorem State.hostNext_exhausted (s : State) (op : HostOp) : (s.hostNext op).exhausted = s.exhausted := rfl
@[simp] theorem State.hostNext_seeded (s : State) (op : HostOp) : (s.hostNext op).seeded = s.seeded := rfl
@[simp] theorem State.hostNext_err (s : State) (op : HostOp) : (s.hostNext op).err = s.err := rfl
@[simp] theorem State.hostNext_host (s : State) (op : HostOp) : (s.hostNext op).host = { s.host with prog := op :: s.host.prog } := rfl
@[simp] theorem State.hostNext_sched (s : State) (op : HostOp) : (s.hostNext op).sched = .host :: s.sched := rfl
@[simp] theorem State.hostNext_draws (s : State) (op : HostOp) : (s.hostNext op).draws = s.draws := rfl

@[simp] theorem State.engineNext_seq (s : State) : (s.engineNext).seq = s.seq := rfl
@[simp] theorem State.engineNext_seed (s : State) : (s.engineNext).seed = s.seed := rfl
@[simp] theorem State.engineNext_len (s : State) : (s.engineNext).len = s.len := rfl
@[simp] theorem State.engineNext_limit (s : State) : (s.engineNext).limit = s.limit := rfl
@[simp] theorem State.engineNext_g (s : State) : (s.engineNext).g = s.g := rfl
@[simp] theorem State.engineNext_perm (s : State) : (s.engineNext).perm = s.perm := rfl
@[simp] theorem State.engineNext_wbuf (s : State) : (s.engineNext).wbuf = s.wbuf := rfl
@[simp] theorem State.engineNext_busy (s : State) : (s.engineNext).busy = s.busy := rfl
@[simp] theorem State.engineNext_sorted (s : State) : (s.engineNext).sorted = s.sorted := rfl
@[simp] theorem State.engineNext_exhausted (s : State) : (s.engineNext).exhausted = s.exhausted := rfl
@[simp] theorem State.engineNext_seeded (s : State) : (s.engineNext).seeded = s.seeded := rfl
@[simp] theorem State.engineNext_err (s : State) : (s.engineNext).err = s.err := rfl
@[simp] theorem State.engineNext_host (s : State) : (s.engineNext).host = s.host := rfl
@[simp] theorem State.engineNext_sched (s : State) : (s.engineNext).sched = .engine :: s.sched := rfl
@[simp] theorem State.engineNext_draws (s : State) : (s.engineNext).draws = s.draws := rfl

@[simp] theorem State.resetNext_seq (s : State) : (s.resetNext).seq = s.seq := rfl
@[simp] theorem State.resetNext_seed (s : State) : (s.resetNext).seed = s.seed := rfl
@[simp] theorem State.resetNext_len (s : State) : (s.resetNext).len = s.len := rfl
@[simp] theorem State.resetNext_limit (s : State) : (s.resetNext).limit = s.limit := rfl
@[simp] theorem State.resetNext_g (s : State) : (s.resetNext).g = s.g := rfl
@[simp] theorem State.resetNext_perm (s : State) : (s.resetNext).perm = s.perm := rfl
@[simp] theorem State.resetNext_wbuf (s : State) : (s.resetNext).wbuf = s.wbuf := rfl
@[simp] theorem State.resetNext_busy (s : State) : (s.resetNext).busy = s.busy := rfl
@[simp] theorem State.resetNext_sorted (s : State) : (s.resetNext).sorted = s.sorted := rfl
@[simp] theorem State.resetNext_exhausted (s : State) : (s.resetNext).exhausted = s.exhausted := rfl
@[simp] theorem State.resetNext_seeded (s : State) : (s.resetNext).seeded = s.seeded := rfl
@[simp] theorem State.resetNext_err (s : State) : (s.resetNext).err = s.err := rfl
@[simp] theorem State.resetNext_host (s : State) : (s.resetNext).host = s.host := rfl
@[simp] theorem State.resetNext_sched (s : State) : (s.resetNext).sched = .reset :: s.sched := rfl
@[simp] theorem State.resetNext_draws (s : State) : (s.resetNext).draws = s.draws := rfl

@[simp] theorem State.resetOverNext_seq (s : State) (op : HostOp) : (s.resetOverNext op).seq = s.seq := rfl
@[simp] theorem State.resetOverNext_seed (s : State) (op : HostOp) : (s.resetOverNext op).seed = s.seed := rfl
@[simp] theorem State.resetOverNext_len (s : State) (op : HostOp) : (s.resetOverNext op).len = s.len := rfl
@[simp] theorem State.resetOverNext_limit (s : State) (op : HostOp) : (s.resetOverNext op).limit = s.limit := rfl
@[simp] theorem State.resetOverNext_g (s : State) (op : HostOp) : (s.resetOverNext op).g = s.g := rfl
@[simp] theorem State.resetOverNext_perm (s : State) (op : HostOp) : (s.resetOverNext op).perm = s.perm := rfl
@[simp] theorem State.resetOverNext_wbuf (s : State) (op : HostOp) : (s.resetOverNext op).wbuf = s.wbuf := rfl
@[simp] theorem State.resetOverNext_busy (s : State) (op : HostOp) : (s.resetOverNext op).busy = s.busy := rfl
@[simp] theorem State.resetOverNext_sorted (s : State) (op : HostOp) : (s.resetOverNext op).sorted = s.sorted := rfl
@[simp] theorem State.resetOverNext_exhausted (s : State) (op : HostOp) : (s.resetOverNext op).exhausted = s.exhausted := rfl
@[simp] theorem State.resetOverNext_seeded (s : State) (op : HostOp) : (s.resetOverNext op).seeded = s.seeded := rfl
@[simp] theorem State.resetOverNext_err (s : State) (op : HostOp) : (s.resetOverNext op).err = s.err := rfl
@[simp] theorem State.resetOverNext_host (s : State) (op : HostOp) : (s.resetOverNext op).host = { s.host with prog := op :: s.host.prog } := rfl
@[simp] theorem State.resetOverNext_sched (s : State) (op : HostOp) : (s.resetOverNext op).sched = .resetOverAccess :: s.sched := rfl
@[simp] theorem State.resetOverNext_draws (s : State) (op : HostOp) : (s.resetOverNext op).draws = s.draws := rfl

@[simp] theorem State.withProgram_seq (s : State) (p : List HostOp) : (s.withProgram p).seq = s.seq := rfl
@[simp] theorem State.withProgram_seed (s : State) (p : List HostOp) : (s.withProgram p).seed = s.seed := rfl
@[simp] theorem State.withProgram_len (s : State) (p : List HostOp) : (s.withProgram p).len = s.len := rfl
@[simp] theorem State.withProgram_limit (s : State) (p : List HostOp) : (s.withProgram p).limit = s.limit := rfl
@[simp] theorem State.withProgram_g (s : State) (p : List HostOp) : (s.withProgram p).g = s.g := rfl
@[simp] theorem State.withProgram_perm (s : State) (p : List HostOp) : (s.withProgram p).perm = s.perm := rfl
@[simp] theorem State.withProgram_wbuf (s : State) (p : List HostOp) : (s.withProgram p).wbuf = s.wbuf := rfl
@[simp] theorem State.withProgram_busy (s : State) (p : List HostOp) : (s.withProgram p).busy = s.busy := rfl
@[simp] theorem State.withProgram_sorted (s : State) (p : List HostOp) : (s.withProgram p).sorted = s.sorted := rfl
@[simp] theorem State.withProgram_exhausted (s : State) (p : List HostOp) : (s.withProgram p).exhausted = s.exhausted := rfl
@[simp] theorem State.withProgram_seeded (s : State) (p : List HostOp) : (s.withProgram p).seeded = s.seeded := rfl
@[simp] theorem State.withProgram_err (s : State) (p : List HostOp) : (s.withProgram p).err = s.err := rfl
@[simp] theorem State.withProgram_host (s : State) (p : List HostOp) : (s.withProgram p).host = { s.host with prog := p } := rfl
@[simp] theorem State.withProgram_sched (s : State) (p : List HostOp) : (s.withProgram p).sched = [] := rfl
@[simp] theorem State.withProgram_draws (s : State) (p : List HostOp) : (s.withProgram p).draws = s.draws := rfl

end Sys2Proof.Machine
end

