-- ==== Sys2Proof/Laws/PerInstr.lean ====
section
/-! SUPPORT. The family Fields of statements about each command as syntax: its fields are legal (rule R81, rule R82,
rule R84) and are the fields of its word (rule R80). -/

namespace Sys2Proof.Laws.Fields

/-- The fields of a command are well-formed, and its word has exactly these fields. -/
def Statement (i : Instr) : Prop := i.wf = true ∧ CmdFields.ofWord (encode i) = i.fields

theorem nop : Statement .nop := ⟨by decide, by decide⟩

theorem seed : Statement .seed := ⟨by decide, by decide⟩

theorem gen : Statement .gen := ⟨by decide, by decide⟩

theorem loadc : Statement .loadc := ⟨by decide, by decide⟩

theorem sort (a : Bool) : Statement (.sort a) := by
  cases a <;> exact ⟨by decide, by decide⟩

theorem clrerr : Statement .clrerr := ⟨by decide, by decide⟩

end Sys2Proof.Laws.Fields
end

