-- ==== Sys2Proof/Laws/Port.lean ====
section
/-! SUPPORT. The host port: what a read and a write can do, said once. -/

namespace Sys2Proof.Machine

/-- A read leaves the state but for the count of free values (rule R57). -/
theorem memRead_state (a : WordAddr) (s : State) : ∃ d, (memRead a s).2 = { s with draws := d } := by
  unfold memRead
  split
  · exact ⟨s.draws + 1, rfl⟩
  · exact ⟨s.draws, rfl⟩

theorem memRead_idle (a : WordAddr) (s : State) (h : s.busy = false) :
    memRead a s = (exactRead (regionOf a) s, s) := by
  simp [memRead, h]

/-- Acceptance by cases (rule R202). -/
theorem acceptCommand_cases (v : Word) (s : State) :
    (s.busy = true ∧ acceptCommand v s = raiseError .cmdBusy s) ∨
    (s.busy = false ∧ (∃ e, decode v = .error e) ∧ acceptCommand v s = raiseError .illegalCmd s) ∨
    (s.busy = false ∧ decode v = .ok .gen ∧ s.seeded = false ∧ acceptCommand v s = raiseError .notSeeded s) ∨
    (s.busy = false ∧ ∃ i, decode v = .ok i ∧ (i = .gen → s.seeded = true) ∧
      acceptCommand v s = latchCommand i s) := by
  cases hb : s.busy with
  | true => exact .inl ⟨rfl, by simp [acceptCommand, hb]⟩
  | false =>
    refine .inr ?_
    cases hd : decode v with
    | error e => exact .inl ⟨rfl, ⟨e, rfl⟩, by simp [acceptCommand, hb, hd]⟩
    | ok i =>
      refine .inr ?_
      cases i <;> cases hs : s.seeded <;>
        first
          | exact .inl ⟨rfl, rfl, rfl, by simp [acceptCommand, hb, hd, needsSeed, hs]⟩
          | exact .inr ⟨rfl, _, rfl, by simp, by simp [acceptCommand, hb, hd, needsSeed, hs]⟩

/-- A data write by cases (rule R204). -/
theorem dataWrite_cases (r : Region) (v : Word) (s : State) :
    (r.writable = false ∧ dataWrite r v s = raiseError .badAddr s) ∨
    (r.writable = true ∧ s.busy = true ∧ dataWrite r v s = raiseError .writeBusy s) ∨
    (r = .len ∧ s.busy = false ∧ v > 256 ∧ dataWrite r v s = raiseError .badValue s) ∨
    (r.writable = true ∧ s.busy = false ∧ (r = .len → ¬ v > 256) ∧ dataWrite r v s = performWrite r v s) := by
  cases hw : r.writable with
  | false => exact .inl ⟨rfl, by simp [dataWrite, hw]⟩
  | true =>
    refine .inr ?_
    cases hb : s.busy with
    | true => exact .inl ⟨rfl, rfl, by simp [dataWrite, hw, hb]⟩
    | false =>
      refine .inr ?_
      by_cases h : r = .len ∧ v > 256
      · exact .inl ⟨h.1, rfl, h.2, by rw [dataWrite, if_neg (by simp [hw]), if_neg (by simp [hb]), if_pos h]⟩
      · refine .inr ⟨rfl, rfl, fun hr hv => h ⟨hr, hv⟩, ?_⟩
        rw [dataWrite, if_neg (by simp [hw]), if_neg (by simp [hb]), if_neg h]

/-- What a write can do: reject, latch a command, or write one of SEED, LEN, LIMIT, WBUF while BUSY = 0. -/
theorem memWrite_cases (a : WordAddr) (v : Word) (s : State) :
    (∃ e : ErrCode, memWrite a v s = raiseError e s) ∨
    (s.busy = false ∧ ∃ i, (i = .gen → s.seeded = true) ∧ memWrite a v s = latchCommand i s) ∨
    (s.busy = false ∧ ∃ x n l B, (n.toNat ≤ 256 ∨ n = s.len) ∧
      memWrite a v s = { s with seed := x, len := n, limit := l, wbuf := B }) := by
  unfold memWrite
  split
  · rcases acceptCommand_cases v s with ⟨-, h⟩ | ⟨-, -, h⟩ | ⟨-, -, -, h⟩ | ⟨hb, i, -, hs, h⟩
    · exact .inl ⟨_, h⟩
    · exact .inl ⟨_, h⟩
    · exact .inl ⟨_, h⟩
    · exact .inr (.inl ⟨hb, i, hs, h⟩)
  · rcases dataWrite_cases (regionOf a) v s with ⟨-, h⟩ | ⟨-, -, h⟩ | ⟨-, -, -, h⟩ | ⟨-, hb, hl, h⟩
    · exact .inl ⟨_, h⟩
    · exact .inl ⟨_, h⟩
    · exact .inl ⟨_, h⟩
    · refine .inr (.inr ⟨hb, ?_⟩)
      rw [h]
      generalize regionOf a = r at hl
      cases r
      case seedLo => exact ⟨_, s.len, s.limit, s.wbuf, .inr rfl, rfl⟩
      case seedHi => exact ⟨_, s.len, s.limit, s.wbuf, .inr rfl, rfl⟩
      case len =>
        refine ⟨s.seed, _, s.limit, s.wbuf, .inl ?_, rfl⟩
        have := hl rfl
        have hv : v.toNat ≤ 256 := by simpa [BitVec.lt_def] using this
        simp only [BitVec.extractLsb'_toNat, Nat.shiftRight_zero]
        omega
      case limitLo => exact ⟨s.seed, s.len, _, s.wbuf, .inr rfl, rfl⟩
      case limitHi => exact ⟨s.seed, s.len, _, s.wbuf, .inr rfl, rfl⟩
      case wbuf w => exact ⟨s.seed, s.len, s.limit, _, .inr rfl, rfl⟩
      all_goals exact ⟨s.seed, s.len, s.limit, s.wbuf, .inr rfl, rfl⟩

/-- A write of the port neither reads nor writes the host's own part of the state. -/
theorem memWrite_host (a : WordAddr) (v : Word) (s : State) (h : HostAgent) :
    memWrite a v { s with host := h } = { memWrite a v s with host := h } := by
  unfold memWrite
  split
  · simp only [acceptCommand, raiseError, latchCommand]
    split
    · rfl
    · split
      · rfl
      · split <;> rfl
  · simp only [dataWrite, raiseError]
    split
    · rfl
    · split
      · rfl
      · split
        · rfl
        · cases regionOf a <;> rfl

/-- Nor does a read. -/
theorem memRead_host (a : WordAddr) (s : State) (h : HostAgent) :
    memRead a { s with host := h } = ((memRead a s).1, { (memRead a s).2 with host := h }) := by
  unfold memRead
  dsimp only
  split
  · rfl
  · cases regionOf a <;> rfl

theorem memWrite_hostField (a : WordAddr) (v : Word) (s : State) : (memWrite a v s).host = s.host := by
  rcases memWrite_cases a v s with ⟨e, h⟩ | ⟨-, i, -, h⟩ | ⟨-, x, n, l, B, -, h⟩ <;> rw [h] <;> rfl

/-- What a step of the host can do to the block: a write's effect, or nothing but a free value drawn. -/
theorem hostStep_cases (lost : Bool) (s : State) :
    (∃ h d, hostStep lost s = { s with host := h, draws := d }) ∨
    (lost = false ∧ ∃ a v h, hostStep lost s = { memWrite a v s with host := h }) := by
  have read : ∀ a, ∃ d, (portRead lost a s).2 = { s with draws := d } := by
    intro a
    cases lost with
    | true => exact ⟨s.draws + 1, rfl⟩
    | false => exact memRead_state a s
  unfold hostStep
  split
  · exact .inl ⟨s.host, s.draws, rfl⟩
  · rename_i a rest h
    obtain ⟨d, hd⟩ := read a
    exact .inl ⟨_, d, by simp only [hd, recordRead, hostGoesOn]; rfl⟩
  · rename_i a v rest h
    cases lost with
    | true => exact .inl ⟨_, s.draws, rfl⟩
    | false => exact .inr ⟨rfl, a, v, _, rfl⟩
  · rename_i rest h
    obtain ⟨d, hd⟩ := read (wordOf 0x004)
    refine .inl ?_
    dsimp only
    split
    · exact ⟨_, d, by simp only [hd, recordRead]; rfl⟩
    · exact ⟨_, d, by simp only [hd, recordRead, hostGoesOn]; rfl⟩
  · exact .inl ⟨_, s.draws, rfl⟩
  · exact .inl ⟨_, s.draws, rfl⟩

end Sys2Proof.Machine
end

