-- ==== Sys2Proof/Laws/Sequence.lean ====
section
/-! SUPPORT. What SORT measures and moves: the last index with a property, the sortedness check, the tail run, the
charge of a skip, and the standard step byte by byte. -/

namespace Sys2Proof.Machine

theorem lastIndex_eq_none {p : Nat → Bool} {m : Nat} : lastIndex p m = none ↔ ∀ k, k < m → p k = false := by
  induction m with
  | zero => simp [lastIndex]
  | succ m ih =>
    unfold lastIndex
    cases hp : p m with
    | true =>
      simp only [if_true, reduceCtorEq, false_iff]
      intro h
      simp [h m (by omega)] at hp
    | false =>
      simp only [Bool.false_eq_true, if_false, ih]
      refine ⟨fun h k hk => ?_, fun h k hk => h k (by omega)⟩
      rcases Nat.lt_succ_iff_lt_or_eq.1 hk with hk | rfl
      · exact h k hk
      · exact hp

theorem lastIndex_eq_some {p : Nat → Bool} {m i : Nat} :
    lastIndex p m = some i ↔ i < m ∧ p i = true ∧ ∀ k, i < k → k < m → p k = false := by
  induction m with
  | zero => simp [lastIndex]
  | succ m ih =>
    unfold lastIndex
    cases hp : p m with
    | true =>
      simp only [if_true, Option.some.injEq]
      constructor
      · rintro rfl
        exact ⟨by omega, hp, fun k h1 h2 => by omega⟩
      · rintro ⟨h1, -, h3⟩
        by_contra hne
        simp [h3 m (by omega) (by omega)] at hp
    | false =>
      simp only [Bool.false_eq_true, if_false, ih]
      constructor
      · rintro ⟨h1, h2, h3⟩
        refine ⟨by omega, h2, fun k hk hk' => ?_⟩
        rcases Nat.lt_succ_iff_lt_or_eq.1 hk' with hk' | rfl
        · exact h3 k hk hk'
        · exact hp
      · rintro ⟨h1, h2, h3⟩
        refine ⟨?_, h2, fun k hk hk' => h3 k hk (by omega)⟩
        rcases Nat.lt_succ_iff_lt_or_eq.1 h1 with h | rfl
        · exact h
        · simp [h2] at hp

theorem isSorted_iff (B : Buffer) (n : Nat) : isSorted B n = true ↔ NonDecreasing B n := by
  simp only [isSorted, List.all_eq_true, List.mem_range, decide_eq_true_eq, NonDecreasing]
  exact ⟨fun h k hk => h k (by omega), fun h k hk => h k (by omega)⟩

theorem descentIndex_eq_some {B : Buffer} {n i : Nat} :
    descentIndex B n = some i ↔ i + 1 < n ∧ byteAt B (i + 1) < byteAt B i ∧
      ∀ k, i < k → k + 1 < n → ¬ byteAt B (k + 1) < byteAt B k := by
  rw [descentIndex, lastIndex_eq_some]
  simp only [gt_iff_lt, decide_eq_true_eq, decide_eq_false_iff_not]
  refine and_congr (by omega) (and_congr Iff.rfl ?_)
  exact ⟨fun h k h1 h2 => h k h1 (by omega), fun h k h1 h2 => h k h1 (by omega)⟩

theorem smallerIndex_eq_some {B : Buffer} {n i j : Nat} :
    smallerIndex B n i = some j ↔ i < j ∧ j < n ∧ byteAt B j < byteAt B i ∧
      ∀ k, j < k → k < n → ¬ byteAt B k < byteAt B i := by
  rw [smallerIndex, lastIndex_eq_some]
  simp only [Bool.and_eq_true, decide_eq_true_eq, Bool.and_eq_false_iff, decide_eq_false_iff_not]
  constructor
  · rintro ⟨h1, ⟨h2, h3⟩, h4⟩
    exact ⟨h2, h1, h3, fun k hk hk' => (h4 k hk hk').resolve_left (by omega)⟩
  · rintro ⟨h1, h2, h3, h4⟩
    exact ⟨h2, ⟨h1, h3⟩, fun k hk hk' => .inr (h4 k hk hk')⟩

/-- The standard step, once its two indices are known. -/
theorem predecessor_eq {B : Buffer} {n i j : Nat} (hi : descentIndex B n = some i)
    (hj : smallerIndex B n i = some j) :
    predecessor B n = reverseBytes (swapBytes B i j) (i + 1) (n - 1) := by
  simp [predecessor, hi, hj]

/-- `extendRun` stops at the first byte that is not above the run. -/
theorem extendRun_spec (B : Buffer) (n fuel l : Nat) (h : fuel + l = n) (hl : 1 ≤ l)
    (run : ∀ k, n - l ≤ k → k + 1 < n → byteAt B (k + 1) < byteAt B k) :
    TailRunIs B n (extendRun B n fuel l) := by
  induction fuel generalizing l with
  | zero =>
    exact .inr ⟨by simpa [extendRun], by simp [extendRun]; omega, by simpa [extendRun] using run,
      .inl (by simp [extendRun]; omega)⟩
  | succ fuel ih =>
    unfold extendRun
    split
    · rename_i hgt
      apply ih (l + 1) (by omega) (by omega)
      intro k hk hk'
      by_cases hk0 : k = n - (l + 1)
      · subst hk0
        have e1 : n - (l + 1) = n - l - 1 := by omega
        have e2 : n - l - 1 + 1 = n - l := by omega
        rw [e1, e2]; exact hgt
      · exact run k (by omega) hk'
    · rename_i hgt
      exact .inr ⟨hl, by omega, run, .inr hgt⟩

/-- The engine's tail run is the one of rule R131. -/
theorem tailRun_spec (B : Buffer) (n : Nat) : TailRunIs B n (tailRun B n) := by
  unfold tailRun
  split
  · rename_i h; exact .inl ⟨h, rfl⟩
  · exact extendRun_spec B n (n - 1) 1 (by omega) (by omega) (fun k h1 h2 => by omega)

theorem skipCharge_eq_some {l : Nat} {c : DWord} :
    skipCharge l = some c ↔ ∃ h : 2 < l ∧ l < 21, c = stepc[l]'h.2 - 1 := by
  unfold skipCharge
  split
  · rename_i h
    simp only [Option.some.injEq]
    exact ⟨fun e => ⟨h, e.symm⟩, fun ⟨_, e⟩ => e.symm⟩
  · rename_i h
    simp only [reduceCtorEq, false_iff]
    exact fun ⟨h', _⟩ => h h'

theorem skipCharge_eq_none {l : Nat} : skipCharge l = none ↔ ¬ (2 < l ∧ l < 21) := by
  unfold skipCharge
  split <;> simp_all

/-- What an iteration does, by cases (rule R133): the two stops, the skip, the standard step. -/
theorem sortIteration_cases (a : Bool) (n : Nat) (B : Buffer) (limit : DWord) :
    (isSorted B n = true ∧ sortIteration a n B limit = .stopSorted) ∨
    (isSorted B n = false ∧ limit = 0 ∧ sortIteration a n B limit = .stopExhausted) ∨
    (isSorted B n = false ∧ limit ≠ 0 ∧ ∃ c, a = true ∧ skipCharge (tailRun B n) = some c ∧ limit ≥ c ∧
      sortIteration a n B limit = .moved (reverseTail B n (tailRun B n)) (limit - c)) ∨
    (isSorted B n = false ∧ limit ≠ 0 ∧ (∀ c, a = true → skipCharge (tailRun B n) = some c → ¬ limit ≥ c) ∧
      sortIteration a n B limit = .moved (predecessor B n) (limit - 1)) := by
  cases hs : isSorted B n with
  | true => exact .inl ⟨rfl, by simp [sortIteration, hs]⟩
  | false =>
    by_cases h0 : limit = 0
    · exact .inr (.inl ⟨rfl, h0, by simp [sortIteration, hs, h0]⟩)
    · have e : sortIteration a n B limit = moveOnce a n B limit := by
        rw [sortIteration, if_neg (by simp [hs]), if_neg h0]
      refine .inr (.inr ?_)
      cases a with
      | false => exact .inr ⟨rfl, h0, by simp, by rw [e]; simp [moveOnce, standardStep]⟩
      | true =>
        cases hc : skipCharge (tailRun B n) with
        | none => exact .inr ⟨rfl, h0, by simp, by rw [e]; simp [moveOnce, hc, standardStep]⟩
        | some c =>
          by_cases hle : limit ≥ c
          · exact .inl ⟨rfl, h0, c, rfl, rfl, hle, by rw [e]; simp only [moveOnce, hc, if_true, hle]⟩
          · refine .inr ⟨rfl, h0, ?_, by rw [e]; simp only [moveOnce, hc, if_true, hle, if_false, standardStep]⟩
            rintro c' - ⟨⟩
            exact hle

end Sys2Proof.Machine
end

