-- ==== Sys2Proof/Laws/Step.lean ====
section
/-! SUPPORT. What a command and a step can do, said once: the case lemmas every statement about steps starts from. -/

namespace Sys2Proof.Machine

theorem execSort_cases (a : Bool) (s : State) :
    (isSorted s.wbuf s.len.toNat = true ∧ execSort a s = .next (finish (markSorted s))) ∨
    (isSorted s.wbuf s.len.toNat = false ∧ s.limit = 0 ∧ execSort a s = .next (finish (markExhausted s))) ∨
    (isSorted s.wbuf s.len.toNat = false ∧ s.limit ≠ 0 ∧ ∃ c, a = true ∧
      skipCharge (tailRun s.wbuf s.len.toNat) = some c ∧ s.limit ≥ c ∧
      execSort a s = .next { s with
        wbuf := reverseTail s.wbuf s.len.toNat (tailRun s.wbuf s.len.toNat), limit := s.limit - c }) ∨
    (isSorted s.wbuf s.len.toNat = false ∧ s.limit ≠ 0 ∧
      (∀ c, a = true → skipCharge (tailRun s.wbuf s.len.toNat) = some c → ¬ s.limit ≥ c) ∧
      execSort a s = .next { s with wbuf := predecessor s.wbuf s.len.toNat, limit := s.limit - 1 }) := by
  rcases sortIteration_cases a s.len.toNat s.wbuf s.limit with
    ⟨h, e⟩ | ⟨h, h0, e⟩ | ⟨h, h0, c, ha, hc, hle, e⟩ | ⟨h, h0, hn, e⟩
  · exact .inl ⟨h, by simp [execSort, e]⟩
  · exact .inr (.inl ⟨h, h0, by simp [execSort, e]⟩)
  · exact .inr (.inr (.inl ⟨h, h0, c, ha, hc, hle, by simp [execSort, e]⟩))
  · exact .inr (.inr (.inr ⟨h, h0, hn, by simp [execSort, e]⟩))

/-- What the engine step of a command can do. -/
theorem exec_cases (i : Instr) (s : State) :
    (i = .nop ∧ exec i s = .next (finish s)) ∨
    (i = .seed ∧ exec i s = .next (seedWith Config.prng s)) ∨
    (i = .gen ∧ exec i s = .next (genWith Config.prng s)) ∨
    (i = .loadc ∧ exec i s = .next (finish { s with wbuf := copyPrefix s.len.toNat s.perm s.wbuf })) ∨
    (i = .clrerr ∧ exec i s = .next (finish { s with err := 0 })) ∨
    (∃ a, i = .sort a ∧ (exec i s = .next (finish (markSorted s)) ∨ exec i s = .next (finish (markExhausted s)) ∨
      ∃ B l, exec i s = .next { s with wbuf := B, limit := l })) := by
  cases i with
  | nop => exact .inl ⟨rfl, rfl⟩
  | seed => exact .inr (.inl ⟨rfl, rfl⟩)
  | gen => exact .inr (.inr (.inl ⟨rfl, rfl⟩))
  | loadc => exact .inr (.inr (.inr (.inl ⟨rfl, rfl⟩)))
  | clrerr => exact .inr (.inr (.inr (.inr (.inl ⟨rfl, rfl⟩))))
  | sort a =>
    refine .inr (.inr (.inr (.inr (.inr ⟨a, rfl, ?_⟩))))
    rcases execSort_cases a s with ⟨-, e⟩ | ⟨-, -, e⟩ | ⟨-, -, c, -, -, -, e⟩ | ⟨-, -, -, e⟩
    · exact .inl e
    · exact .inr (.inl e)
    · exact .inr (.inr ⟨_, _, e⟩)
    · exact .inr (.inr ⟨_, _, e⟩)

/-- What a step can be, by the agent that moves. -/
theorem step_cases (s : State) :
    (nextMove s = .host ∧ step s = .next (hostStep false (popMove s))) ∨
    (nextMove s = .engine ∧ s.seq = .idle ∧ step s = .next (popMove s)) ∨
    (nextMove s = .engine ∧ ∃ i, s.seq = .run i ∧ step s = exec i (popMove s)) ∨
    (nextMove s = .reset ∧ step s = .next (resetBlock (popMove s))) ∨
    (nextMove s = .resetOverAccess ∧ step s = .next (resetBlock (hostStep true (popMove s)))) := by
  cases hm : nextMove s with
  | host => exact .inl ⟨rfl, by simp [step, hm, perform]⟩
  | engine =>
    refine .inr ?_
    cases hq : s.seq with
    | idle => exact .inl ⟨rfl, rfl, by simp [step, hm, perform, engineStep, hq]⟩
    | run i => exact .inr (.inl ⟨rfl, i, rfl, by simp [step, hm, perform, engineStep, hq]⟩)
  | reset => exact .inr (.inr (.inr (.inl ⟨rfl, by simp [step, hm, perform]⟩)))
  | resetOverAccess => exact .inr (.inr (.inr (.inr ⟨rfl, by simp [step, hm, perform]⟩)))

/-- The step of a state whose host is to make the step `op`. -/
theorem step_hostNext (s : State) (op : HostOp) :
    step (s.hostNext op) = .next (hostStep false { s with host := { s.host with prog := op :: s.host.prog } }) := rfl

/-- A write of the host, as one step of the machine, is MemWrite (rule R62). -/
theorem step_hostNext_wr (s : State) (a : WordAddr) (v : Word) :
    step (s.hostNext (.wr a v)) = .next (memWrite a v s) := by
  have e : hostStep false { s with host := { s.host with prog := .wr a v :: s.host.prog } } =
      hostGoesOn s.host.prog (memWrite a v { s with host := { s.host with prog := .wr a v :: s.host.prog } }) := rfl
  rw [step_hostNext, e, memWrite_host, hostGoesOn]
  congr 1
  have := memWrite_hostField a v s
  cases h : memWrite a v s
  simp_all

/-- A read of the host, as one step of the machine, is MemRead, recorded by the host. -/
theorem step_hostNext_rd (s : State) (a : WordAddr) :
    step (s.hostNext (.rd a)) = .next (recordRead a (memRead a s).1 (memRead a s).2) := by
  have e : hostStep false { s with host := { s.host with prog := .rd a :: s.host.prog } } =
      (let r := memRead a { s with host := { s.host with prog := .rd a :: s.host.prog } }
       recordRead a r.1 (hostGoesOn s.host.prog r.2)) := rfl
  rw [step_hostNext, e, memRead_host]
  obtain ⟨d, hd⟩ := memRead_state a s
  simp only [hd, hostGoesOn, recordRead]

theorem step_engineNext (s : State) : step s.engineNext = engineStep s := rfl

theorem step_resetNext (s : State) : step s.resetNext = .next (resetBlock s) := rfl

theorem engineStep_run {s : State} {i : Instr} (h : s.seq = .run i) : engineStep s = exec i s := by
  simp [engineStep, h]

theorem engineStep_idle {s : State} (h : s.seq = .idle) : engineStep s = .next s := by
  simp [engineStep, h]

theorem engineRun_next {s t : State} (k : Nat) (h : engineStep s = .next t) :
    engineRun (k + 1) s = engineRun k t := by
  simp [engineRun, h]

theorem engineRun_idle {s : State} (k : Nat) (h : s.seq = .idle) : engineRun k s = .next s := by
  induction k with
  | zero => rfl
  | succ k ih => rw [engineRun_next k (engineStep_idle h), ih]

end Sys2Proof.Machine
end

