-- ==== Sys2Proof/Tests/Slice0.lean ====
section
/-! SUPPORT. Tests of the model against the spec's own vectors (`95_test_vectors.md`) and words (rule R84), and one
witness for the hypotheses of every statement. Every expected value is the spec's, named in the test's comment. -/

namespace Sys2Proof.Tests

open Sys2Proof.Machine

/-! ## Well-formedness: an ill-formed term for each check -/

/-- RSV bit 9 set (vector X4). -/
theorem test_wf_refuses_reserved_bits : (CmdFields.wf { opc := 4, a := false, rsv := 1 }) = false := by decide

/-- Opcode 0x06 (vector X2). -/
theorem test_wf_refuses_reserved_opcode : (CmdFields.wf { opc := 6, a := false, rsv := 0 }) = false := by decide

/-- GEN with A = 1 (vector X3). -/
theorem test_wf_refuses_accel_outside_sort : (CmdFields.wf { opc := 2, a := true, rsv := 0 }) = false := by decide

/-- A length above 256 (vector X7). -/
theorem test_wf_refuses_length : lengthOk 257 = false := by decide

theorem test_wf_accepts_every_command (i : Instr) : i.wf = true := by
  cases i with
  | sort a => cases a <;> decide
  | _ => decide

/-! ## Decoding: each command's word, bit by bit from rule R84 -/

theorem test_decode_nop : decode 0b00000000000000000000000000000000 = .ok .nop := by decide
theorem test_decode_seed : decode 0b00000000000000000000000000000001 = .ok .seed := by decide
theorem test_decode_gen : decode 0b00000000000000000000000000000010 = .ok .gen := by decide
theorem test_decode_loadc : decode 0b00000000000000000000000000000011 = .ok .loadc := by decide
theorem test_decode_sort_na : decode 0b00000000000000000000000000000100 = .ok (.sort false) := by decide
theorem test_decode_sort : decode 0b00000000000000000000000100000100 = .ok (.sort true) := by decide
theorem test_decode_clrerr : decode 0b00000000000000000000000000000101 = .ok .clrerr := by decide

/-- Vectors X2 to X6: every illegal word by its reason. -/
theorem test_decode_illegal :
    decode 0x00000006 = .error .reservedOpcode ∧ decode 0x00000102 = .error .accelOutsideSort ∧
    decode 0x00000204 = .error .reservedBits ∧ decode 0x80000104 = .error .reservedBits ∧
    decode 0x000000ff = .error .reservedOpcode := by decide

theorem test_decode_table_word : decodeTableWord 32 0x104 = some (.sort true) ∧ decodeTableWord 32 6 = none := by
  decide

/-! ## Test states and generators -/

/-- An idle block with the given sequence in WBUF (its length in LEN), LIMIT, and PERM the identity. -/
def blockWith (bs : List Byte) (limit : DWord) : State :=
  { State.reset with
    wbuf := tabulate fun k => bs.getD k 0
    perm := identityBuffer
    len := BitVec.ofNat 9 bs.length
    limit := limit
    g := 0 }

/-- What a step's next state shows under `f`. -/
def shows {α : Type} (f : State → α) : Host.Outcome State Fault Refusal → Option α
  | .next t => some (f t)
  | .fault _ => none
  | .refused _ => none

/-- The sequence, LIMIT, SORTED and EXHAUSTED of a state. -/
def sortView (s : State) : List Byte × DWord × Bool × Bool := (s.sequence, s.limit, s.sorted, s.exhausted)

/-- STATUS and the block's registers a rejection must leave alone. -/
def portView (s : State) : Word × BitVec 9 × DWord × Seq := (statusWord s, s.len, s.seed, s.seq)

/-- The test instantiation TZ of `95_test_vectors.md`. -/
def generatorTZ : Prng where
  seed _ _ := 0
  next32 t := if t = 0 then (0x89abcdef, 1) else (0x01234567, 0)
  draw t _ := (0, t)

/-- The test instantiation T1 of `95_test_vectors.md`. -/
def generatorT1 : Prng where
  seed s _ := s.toNat
  next32 c := (BitVec.ofNat 32 c, c + 1)
  draw c j := (Fin.ofNat (j + 1) c, c + 1)

/-! ## SORT -/

/-- S1, iteration 1: one skip with L = 3. -/
theorem test_sort_skip : shows sortView (exec (.sort true) (blockWith [3, 2, 1] 100)) =
    some ([1, 2, 3], 95, false, false) := by decide

/-- S4: the guard holds with equality, LIMIT reaches 0. -/
theorem test_sort_skip_guard_equal : shows sortView (exec (.sort true) (blockWith [3, 2, 1] 5)) =
    some ([1, 2, 3], 0, false, false) := by decide

/-- S3, first step: the guard `4 ≥ 5` fails, a standard step. -/
theorem test_sort_skip_guard_fails : shows sortView (exec (.sort true) (blockWith [3, 2, 1] 4)) =
    some ([3, 1, 2], 3, false, false) := by decide

/-- S2, second step: [3, 1, 2] to [2, 3, 1]. -/
theorem test_sort_standard_step : shows sortView (exec (.sort false) (blockWith [3, 1, 2] 99)) =
    some ([2, 3, 1], 98, false, false) := by decide

/-- S12: at [2, 4, 3, 1, 0] the maximal run has L = 4 and LIMIT = 20 is too small, so no skip of the last three. -/
theorem test_sort_maximal_run : shows sortView (exec (.sort true) (blockWith [2, 4, 3, 1, 0] 20)) =
    some ([2, 4, 3, 0, 1], 19, false, false) := by decide

/-- S14, first step: repeated bytes. -/
theorem test_sort_repeated_bytes : shows sortView (exec (.sort true) (blockWith [1, 1, 0] 10)) =
    some ([1, 0, 1], 9, false, false) := by decide

/-- S8: sorted at entry with LIMIT = 0 ends SORTED. -/
theorem test_sort_sorted_first : shows sortView (exec (.sort true) (blockWith [0, 1, 2] 0)) =
    some ([0, 1, 2], 0, true, false) := by decide

/-- S9: unsorted with LIMIT = 0 ends EXHAUSTED, unchanged. -/
theorem test_sort_exhausted : shows sortView (exec (.sort true) (blockWith [2, 1] 0)) =
    some ([2, 1], 0, false, true) := by decide

/-! ## LOADC, SEED, GEN, NOP, CLRERR -/

/-- Rule R130: the first LEN bytes of PERM, the rest of WBUF untouched. -/
theorem test_loadc : shows (fun t => (prefixOf t.wbuf 5, t.busy))
    (exec .loadc (blockWith [9, 8, 7] 0)) = some ([0, 1, 2, 0, 0], false) := by decide

/-- G1: TZ rotates the identity, PERM[0] = 1; LIMIT = 0x0123456789abcdef. -/
theorem test_gen_rotates : (byteAt (genWith generatorTZ (blockWith [] 0)).perm 0,
    (genWith generatorTZ (blockWith [] 0)).limit) = (1, 0x0123456789abcdef) := by decide +kernel

/-- G4: T1 from `c = 0`: PERM[0] = 0x81, LIMIT and `c = 257`. -/
theorem test_gen_draws : (byteAt (genWith generatorT1 (blockWith [] 0)).perm 0,
    (genWith generatorT1 (blockWith [] 0)).limit, (genWith generatorT1 (blockWith [] 0)).g) =
      (0x81, 0x00000100000000ff, 257) := by decide +kernel

/-- SD3: all 64 bits of SEED reach the generator. -/
theorem test_seed : ((seedWith generatorT1 { blockWith [] 0 with seed := 0xffffffff00000000 }).g,
    statusWord (seedWith generatorT1 (blockWith [] 0))) = (0xffffffff00000000, 0x00000008) := by decide

/-- Rule R190: NOP only finishes. -/
theorem test_nop : shows portView (exec .nop { blockWith [] 0 with seq := .run .nop, busy := true }) =
    some (0x00000000, 0, 0, .idle) := by decide

/-- X19: ERR = 3 is cleared at the engine step. -/
theorem test_clrerr : shows portView (exec .clrerr { blockWith [] 0 with
    seq := .run .clrerr, busy := true, err := 3 }) = some (0x00000000, 0, 0, .idle) := by decide

/-! ## The host port -/

/-- A SORT is running (STATUS = 0x00000001), as in vectors X13 to X17. -/
def running : State := { blockWith [2, 1] 1 with seq := .run (.sort true), busy := true }

/-- X1: GEN while SEEDED = 0. -/
theorem test_gen_not_seeded : shows portView (step (State.reset.hostNext (.wr 0 2))) =
    some (0x00000400, 0, 0, .idle) := by decide

/-- X13, X14: CMD_BUSY, before ILLEGAL_CMD. -/
theorem test_cmd_busy : shows statusWord (step (running.hostNext (.wr 0 0x104))) = some 0x00000101 ∧
    shows statusWord (step (running.hostNext (.wr 0 6))) = some 0x00000101 := by decide

/-- X7, X8: LEN values above 256. -/
theorem test_len_bad_value : shows portView (step (State.reset.hostNext (.wr (wordOf 0x010) 0x101))) =
      some (0x00000500, 0, 0, .idle) ∧
    shows portView (step (State.reset.hostNext (.wr (wordOf 0x010) 0x200))) = some (0x00000500, 0, 0, .idle) := by
  decide

/-- X9 to X12: STATUS, PERM, STEPC and an unmapped word. -/
theorem test_bad_addr : (List.map (fun off => shows statusWord (step (State.reset.hostNext (.wr (wordOf off) 0))))
    [0x004, 0x100, 0x300, 0x01C]) = List.replicate 4 (some 0x00000600) := by decide

/-- X16, X17: busy before bad value, bad address before busy. -/
theorem test_data_write_priority : shows statusWord (step (running.hostNext (.wr (wordOf 0x010) 0x300))) =
      some 0x00000201 ∧
    shows statusWord (step (running.hostNext (.wr (wordOf 0x004) 0))) = some 0x00000601 := by decide

/-- B5: LEN = 256 is legal. -/
theorem test_len_256 : shows portView (step (State.reset.hostNext (.wr (wordOf 0x010) 0x100))) =
    some (0x00000000, 256, 0, .idle) := by decide

/-- B1, B2: little-endian packing of a WBUF word. -/
theorem test_wbuf_packing : shows (fun t => prefixOf t.wbuf 4)
    (step ((blockWith [] 0).hostNext (.wr (wordOf 0x200) 0x02030004))) = some [4, 0, 3, 2] := by decide

/-- B6, B7, B8, B9: CMD, unmapped words and the STEPC window. -/
theorem test_reads : (List.map (fun off => (memRead (wordOf off) State.reset).1)
    [0x000, 0x01C, 0x0FC, 0x3A8, 0x3FC, 0x300, 0x304, 0x3A0, 0x3A4]) =
      [0, 0, 0, 0, 0, 1, 0, 0x82b40000, 0x21c3677c] := by decide

/-- B11: STATUS is exact while a SORT runs. -/
theorem test_status_while_busy : (memRead (wordOf 0x004) running).1 = 0x00000001 := by decide

/-- P3: during CLRERR a read may see ERR = 6 with BUSY = 1. -/
theorem test_status_during_clrerr : shows statusWord
    (step ({ State.reset with err := 6 }.hostNext (hostCmd .clrerr))) = some 0x00000601 := by decide

/-- Acceptance of a SORT clears SORTED (rule R31; P4 round 2 to the busy value 0x00000009). -/
theorem test_sort_acceptance_clears : shows statusWord
    (step ({ State.reset with sorted := true, seeded := true }.hostNext (hostCmd (.sort true)))) =
      some 0x00000009 := by decide

/-- A placed word is run by the very next step. -/
theorem test_fetch_word : shows (fun t => (t.seeded, t.seq)) (step (State.reset.withFetchWord 32 1)) =
    some (true, .idle) := by decide

/-- KS1, round 1 and 2: XOR and reverse. -/
theorem test_accumulate : accumulate (accumulate [0, 0, 0, 0] [1, 2, 3, 4]) [1, 2, 3, 4] = [5, 1, 1, 5] := by decide

/-- P1: the words of `WRBYTES 4, 0, 3, 2, 1`. -/
theorem test_write_bytes : hostWriteBytes [4, 0, 3, 2, 1] =
    [.wr (wordOf 0x200) 0x02030004, .wr (wordOf 0x204) 0x00000001] := by decide

/-- E1, L2.9: the step counts are the factorials. -/
theorem test_stepc : stepc[20] = 0x21c3677c82b40000 ∧ stepc[13] = 0x000000017328cc00 := by decide

end Sys2Proof.Tests
end

