-- ==== Sys2Proof/Tests/Witnesses.lean ====
section
/-! SUPPORT. For every statement with hypotheses, a concrete state and operands that meet them together, clause by
clause at the boundary of its range. -/

namespace Sys2Proof.Tests

open Sys2Proof.Machine

/-- Each clause of `DecodeChecksInOrder` has a word; the reserved opcodes at both ends. -/
theorem witness_DecodeChecksInOrder :
    (∃ w : Word, w.extractLsb' 9 23 ≠ 0) ∧
    (∃ w : Word, w.extractLsb' 9 23 = 0 ∧ w.extractLsb' 0 8 = 4) ∧
    (∃ w : Word, w.extractLsb' 9 23 = 0 ∧ w.extractLsb' 0 8 ≠ 4 ∧ w.getLsbD 8 = true) ∧
    (∀ o : BitVec 8, o ∈ [0, 1, 2, 3, 5, 6, 255] → ∃ w : Word,
      w.extractLsb' 9 23 = 0 ∧ w.getLsbD 8 = false ∧ w.extractLsb' 0 8 = o) :=
  ⟨⟨0x200, by decide⟩, ⟨0x104, by decide⟩, ⟨0x102, by decide⟩, fun o h => by
    simp only [List.mem_cons, List.not_mem_nil, or_false] at h
    obtain rfl | rfl | rfl | rfl | rfl | rfl | rfl := h
    exacts [⟨0, by decide⟩, ⟨1, by decide⟩, ⟨2, by decide⟩, ⟨3, by decide⟩, ⟨5, by decide⟩, ⟨6, by decide⟩,
      ⟨255, by decide⟩]⟩

theorem witness_StepRunsTheLatchedCommand :
    (running.seq = .run (.sort true) ∧ running.sched = []) ∧ State.reset.seq = .idle := by decide

theorem witness_PlacedWordIsRun : decodeTableWord 32 5 = some .clrerr := by decide

theorem witness_IdleBlockKeepsItsState :
    State.reset.seq = .idle ∧ State.reset.sched = [] ∧ State.reset.host.prog = [] := by decide

theorem witness_CommandAcceptance :
    running.busy = true ∧ State.reset.busy = false ∧ (∀ i, decode 6 ≠ .ok i) ∧
    (decode 2 = .ok .gen ∧ State.reset.seeded = false) ∧
    (decode 0x104 = .ok (.sort true) ∧ (Instr.sort true = .gen → State.reset.seeded = true)) := by
  refine ⟨by decide, by decide, ?_, by decide, by decide, by decide⟩
  intro i h
  have e : decode 6 = .error .reservedOpcode := by decide
  rw [e] at h
  cases h

/-- The three illegal shapes: opcode 6, RSV bit 31, A with opcode 5. -/
theorem witness_IllegalWordsAreRejected : State.reset.busy = false ∧
    6 ≤ ((0x00000006 : Word).extractLsb' 0 8).toNat ∧ (0x80000104 : Word).extractLsb' 9 23 ≠ 0 ∧
    ((0x00000105 : Word).getLsbD 8 = true ∧ (0x00000105 : Word).extractLsb' 0 8 ≠ 4) := by decide

/-- Each clause of `DataWriteChecks` at the ends of its ranges of offsets and values. -/
theorem witness_DataWriteChecks :
    (∀ off ∈ [0x004, 0x01C, 0x1FC, 0x300, 0x3FC], ∃ a : WordAddr, offsetOf a = off) ∧
    (∀ off ∈ [0x008, 0x018, 0x200, 0x2FC], ∃ a : WordAddr, offsetOf a = off) ∧
    running.busy = true ∧ State.reset.busy = false ∧ offsetOf 0 = 0x000 ∧
    (offsetOf 4 = 0x010 ∧ 256 < (257 : Word).toNat) ∧ (256 : Word).toNat ≤ 256 := by
  refine ⟨?_, ?_, by decide, by decide, by decide, by decide, by decide⟩
  · intro off h
    exact ⟨wordOf off, by revert off; decide⟩
  · intro off h
    exact ⟨wordOf off, by revert off; decide⟩

theorem witness_DataWriteEffects : State.reset.busy = false ∧ (256 : Word).toNat ≤ 256 ∧ 256 < (257 : Word).toNat ∧
    (63 : Nat) < 64 ∧ offsetOf 1 ≠ 0x000 ∧ ∃ t, step (State.reset.hostNext (.wr 1 7)) = .next t :=
  ⟨by decide, by decide, by decide, by decide, by decide, _, rfl⟩

theorem witness_HostCannotDisturbRunningCommand :
    ∃ s : State, s.busy = true ∧ nextMove s = .host := ⟨{ running with sched := [.host] }, by decide, by decide⟩

/-- Each clause of `HostReads` at the ends of its ranges. -/
theorem witness_HostReads :
    (∀ off ∈ [0x000, 0x004, 0x008, 0x00C, 0x010, 0x014, 0x018, 0x01C, 0x0FC, 0x100, 0x1FC, 0x200, 0x2FC,
      0x300 + 8 * 0, 0x304 + 8 * 20, 0x3A8, 0x3FC], ∃ a : WordAddr, offsetOf a = off) ∧
    State.reset.busy = false ∧ running.busy = true := by
  refine ⟨?_, by decide, by decide⟩
  intro off h
  exact ⟨wordOf off, by revert off; decide⟩

theorem witness_ReadsHaveNoSideEffect : State.reset.busy = false ∧
    ∃ t, step (State.reset.hostNext (.rd 4)) = .next t := ⟨rfl, _, rfl⟩

theorem witness_PollWaitsForIdle : running.busy = true ∧ State.reset.busy = false := by decide

theorem witness_PseudoWritesStoreTheirOperands :
    State.reset.seq = .idle ∧ State.reset.busy = false ∧ (List.replicate 256 (7 : Byte)).length ≤ 256 :=
  ⟨rfl, rfl, List.length_replicate.le⟩

theorem witness_PseudoReadsReturnTheBytes :
    State.reset.seq = .idle ∧ State.reset.busy = false ∧ (256 : Nat) ≤ 256 := by decide

/-- The hypotheses of `CommandPort`, which the command statements share. -/
theorem witness_CommandPort :
    running.busy = true ∧ State.reset.busy = false ∧ (∃ s : State, s.busy = false ∧ s.seeded = true) ∧
    ((0x00000101 : Word).extractLsb' 0 8 = (encode .seed).extractLsb' 0 8 ∧
      (0x00000101 : Word).getLsbD 8 = true ∧ ∀ a, Instr.seed ≠ .sort a) ∧
    ((0x00000304 : Word).extractLsb' 0 8 = (encode (.sort true)).extractLsb' 0 8 ∧
      (0x00000304 : Word).extractLsb' 9 23 ≠ 0) := by
  refine ⟨by decide, by decide, ⟨{ State.reset with seeded := true }, by decide⟩, ?_, by decide⟩
  exact ⟨by decide, by decide, fun a h => by cases h⟩

theorem witness_ClrerrCommand :
    ∃ s : State, s.seq = .idle ∧ s.busy = false ∧ s.err = 3 := ⟨{ State.reset with err := 3 }, by decide⟩

/-- A generator whose bounded draws are all 0 and whose two raw draws are the words of the example: TZ. -/
theorem witness_GenCommand :
    (State.reset.busy = false ∧ State.reset.seeded = false) ∧
    ∃ (P : Prng) (s : State) (g1 g2 g3 : PrngState), (∀ g j, (P.draw g j).1.val = 0) ∧
      (shuffle P 255 s.g identityBuffer).1 = g1 ∧ P.next32 g1 = (0x89abcdef, g2) ∧
      P.next32 g2 = (0x01234567, g3) := by
  refine ⟨by decide, generatorTZ, blockWith [] 0, 0, 1, 0, fun _ _ => rfl, ?_, by decide, by decide⟩
  decide

/-- Two runs that differ in everything but the seed. -/
theorem witness_SameSeedSamePermutations :
    ∃ (s s' : State) (before after before' after' : Nat → State),
      s.seed = s'.seed ∧ exec .seed s = .next (after 0) ∧ exec .seed s' = .next (after' 0) ∧
      (∀ k, (before k).g = (after k).g ∧ exec .gen (before k) = .next (after (k + 1))) ∧
      (∀ k, (before' k).g = (after' k).g ∧ exec .gen (before' k) = .next (after' (k + 1))) ∧
      s.limit ≠ s'.limit := by
  let run (s : State) : Nat → State := fun k => Nat.rec (seedWith Config.prng s) (fun _ t => genWith Config.prng t) k
  refine ⟨State.reset, { State.reset with limit := 1 }, run State.reset, run State.reset,
    run { State.reset with limit := 1 }, run { State.reset with limit := 1 }, rfl, rfl, rfl,
    fun k => ⟨rfl, rfl⟩, fun k => ⟨rfl, rfl⟩, by decide⟩

theorem sorted_blockWith_012 : NonDecreasing (blockWith [0, 1, 2] 0).wbuf (blockWith [0, 1, 2] 0).len.toNat :=
  (isSorted_iff _ _).1 (by decide)

theorem unsorted_blockWith_321 : ¬ NonDecreasing (blockWith [3, 2, 1] 5).wbuf (blockWith [3, 2, 1] 5).len.toNat := by
  rw [← isSorted_iff]; decide

theorem unsorted_blockWith_21 : ¬ NonDecreasing (blockWith [2, 1] 0).wbuf (blockWith [2, 1] 0).len.toNat := by
  rw [← isSorted_iff]; decide

theorem tailRun_blockWith_321 : TailRunIs (blockWith [3, 2, 1] 5).wbuf (blockWith [3, 2, 1] 5).len.toNat 3 := by
  have h := tailRun_spec (blockWith [3, 2, 1] 5).wbuf (blockWith [3, 2, 1] 5).len.toNat
  rwa [show tailRun (blockWith [3, 2, 1] 5).wbuf (blockWith [3, 2, 1] 5).len.toNat = 3 by decide] at h

theorem skipCondition_blockWith_321 : SkipCondition true 3 (blockWith [3, 2, 1] 5).limit :=
  ⟨rfl, by decide, by decide, by decide⟩

theorem witness_SortStopsWhenSorted : ∃ s : State, NonDecreasing s.wbuf s.len.toNat := ⟨_, sorted_blockWith_012⟩

theorem witness_SortStopsWhenExhausted : ∃ s : State, ¬ NonDecreasing s.wbuf s.len.toNat ∧ s.limit = 0 :=
  ⟨_, unsorted_blockWith_21, rfl⟩

/-- The skip at its smallest length, with the guard met with equality (S4). -/
theorem witness_SkipReversesTheTail : ∃ (s : State) (l : Nat), s.len.toNat ≤ 256 ∧
    TailRunIs s.wbuf s.len.toNat l ∧ SkipCondition true l s.limit :=
  ⟨_, 3, by decide, tailRun_blockWith_321, skipCondition_blockWith_321⟩

/-- S2's first step: A = 0 on [3, 2, 1], `i = 1`, `j = 2`. -/
theorem witness_StandardStepMoves : ∃ (a : Bool) (s : State) (l i j : Nat), s.len.toNat ≤ 256 ∧
    TailRunIs s.wbuf s.len.toNat l ∧ ¬ SkipCondition a l s.limit ∧ s.limit ≠ 0 ∧
    i + 1 < s.len.toNat ∧ byteAt s.wbuf (i + 1) < byteAt s.wbuf i ∧
    (∀ k, i < k → k + 1 < s.len.toNat → ¬ byteAt s.wbuf (k + 1) < byteAt s.wbuf k) ∧
    i < j ∧ j < s.len.toNat ∧ byteAt s.wbuf j < byteAt s.wbuf i ∧
    (∀ k, j < k → k < s.len.toNat → ¬ byteAt s.wbuf k < byteAt s.wbuf i) := by
  have n : (blockWith [3, 2, 1] 5).len.toNat = 3 := by decide
  refine ⟨false, blockWith [3, 2, 1] 5, 3, 1, 2, by decide, tailRun_blockWith_321, fun h => Bool.noConfusion h.1,
    by decide, by decide, by decide, ?_, by decide, by decide, by decide, ?_⟩
  · intro k h1 h2; omega
  · intro k h1 h2; omega

theorem witness_StandardStepIndicesExist : ∃ (B : Buffer) (n : Nat), isSorted B n = false :=
  ⟨(blockWith [2, 1] 0).wbuf, 2, by decide⟩

theorem witness_SortNaChargesOne : ∃ s : State, ¬ NonDecreasing s.wbuf s.len.toNat ∧ s.limit ≠ 0 :=
  ⟨_, unsorted_blockWith_321, by decide⟩

theorem witness_StepCountReadInBounds : (skipCharge 3).isSome = true ∧ (skipCharge 20).isSome = true := by decide

theorem witness_SkipEqualsStandardSteps : ∃ (s t : State) (l : Nat), s.len.toNat ≤ 256 ∧
    s.seq = .run (.sort false) ∧ TailRunIs s.wbuf s.len.toNat l ∧ SkipCondition true l s.limit ∧
    exec (.sort true) s = .next t := by
  have ex : ∀ s : State, ∃ t, exec (.sort true) s = .next t := by
    intro s
    rcases execSort_cases true s with ⟨-, e⟩ | ⟨-, -, e⟩ | ⟨-, -, c, -, -, -, e⟩ | ⟨-, -, -, e⟩ <;> exact ⟨_, e⟩
  obtain ⟨t, ht⟩ := ex { blockWith [3, 2, 1] 5 with seq := .run (.sort false) }
  exact ⟨{ blockWith [3, 2, 1] 5 with seq := .run (.sort false) }, t, 3, by decide, rfl, tailRun_blockWith_321, skipCondition_blockWith_321, ht⟩

theorem witness_AccelerationKeepsTheResult : (blockWith [3, 2, 1] 5).len.toNat ≤ 256 := by decide

theorem witness_SortClosedForm : ({ blockWith [3, 2, 1] 5 with len := 256 } : State).len.toNat ≤ 256 := by decide

theorem witness_SortFinishes :
    running.seq = .run (.sort true) ∧ running.sorted = false ∧ running.exhausted = false := by decide

theorem witness_SortPermutesItsSequence :
    ∃ t, running.len.toNat ≤ 256 ∧ running.seq = .run (.sort true) ∧ engineRun 0 running = .next t :=
  ⟨_, by decide, rfl, rfl⟩

theorem witness_MaximumLimitSortsTwentyBytes :
    ∃ s : State, s.len.toNat ≤ 20 ∧ s.sequence.Nodup ∧ s.limit = 0xffffffffffffffff :=
  ⟨blockWith [19, 3, 7] 0xffffffffffffffff, by decide, by decide, rfl⟩

theorem witness_TwentyOneDescendingExhausts : ∃ s : State, s.len = 21 ∧ s.limit = 0xffffffffffffffff ∧
    ∀ k, k < 21 → byteAt s.wbuf k = BitVec.ofNat 8 (20 - k) := by
  refine ⟨{ State.reset with
    wbuf := tabulate fun k => BitVec.ofNat 8 (20 - k), len := 21, limit := 0xffffffffffffffff }, rfl, rfl, ?_⟩
  intro k hk
  exact byteAt_tabulate_lt (by omega)

/-- A = 0 on [3, 2, 1], whose tail run would allow a skip. -/
theorem witness_StandardStepIsPredecessor : ∃ (a : Bool) (s : State) (l : Nat), s.len.toNat ≤ 256 ∧
    ¬ NonDecreasing s.wbuf s.len.toNat ∧ s.limit ≠ 0 ∧ TailRunIs s.wbuf s.len.toNat l ∧
    ¬ SkipCondition a l s.limit :=
  ⟨false, _, 3, by decide, unsorted_blockWith_321, by decide, tailRun_blockWith_321, fun h => Bool.noConfusion h.1⟩

theorem running_inv : running.Inv := by
  constructor <;> simp [running, blockWith, State.reset]

theorem witness_StepKeepsInvariant : ∃ s t : State, s.Inv ∧ step s = .next t :=
  ⟨{ running with sched := [.host] }, _, ⟨running_inv.1, running_inv.2, running_inv.3, running_inv.4, running_inv.5,
    running_inv.6⟩, rfl⟩

theorem shows_eq_some {α : Type} {f : State → α} {o : Host.Outcome State Fault Refusal} {x : α}
    (h : shows f o = some x) : ∃ t, o = .next t ∧ f t = x := by
  cases o with
  | next t => exact ⟨t, rfl, by simpa [shows] using h⟩
  | fault r => cases h
  | refused r => cases h

/-- An idle block whose engine moves next with `i` latched. -/
def latched (i : Instr) : State := { blockWith [2, 1] 1 with seq := .run i, busy := true }

/-- Every clause: SEED and GEN replace G, GEN replaces PERM, LOADC and the host replace bytes of WBUF. -/
theorem witness_WritersOfTheBuffers :
    (∃ s t : State, step s = .next t ∧ nextMove s ≠ .reset ∧ nextMove s ≠ .resetOverAccess ∧ t.g ≠ s.g) ∧
    (∃ s t : State, step s = .next t ∧ nextMove s ≠ .reset ∧ nextMove s ≠ .resetOverAccess ∧ t.perm ≠ s.perm) ∧
    (∃ s t : State, step s = .next t ∧ nextMove s = .engine ∧ t.wbuf ≠ s.wbuf) ∧
    (∃ s t : State, step s = .next t ∧ nextMove s = .host ∧ t.wbuf ≠ s.wbuf) := by
  refine ⟨⟨{ latched .seed with g := Config.prngSeed 0 0 + 1 }, _, rfl, by decide, by decide,
      fun h => Nat.succ_ne_self _ h.symm⟩,
    ⟨{ latched .gen with g := 0, perm := tabulate fun k => byteAt (generate Config.prng 0).perm k + 1 },
      _, rfl, (fun h => by cases h), (fun h => by cases h), ?_⟩,
    ⟨latched .loadc, _, rfl, rfl, ?_⟩, ⟨(blockWith [2, 1] 1).hostNext (.wr (wordOf 0x200) 0x09), _, rfl, rfl, ?_⟩⟩
  · intro h
    have h0 := congrArg (fun B => byteAt B 0) h
    dsimp only at h0
    rw [byteAt_tabulate_lt (by omega)] at h0
    change byteAt (generate Config.prng 0).perm 0 = byteAt (generate Config.prng 0).perm 0 + 1 at h0
    generalize byteAt (generate Config.prng 0).perm 0 = b at h0
    revert h0; revert b; decide
  · intro h
    exact absurd (congrArg (fun B => byteAt B 0) h) (by decide)
  · intro h
    exact absurd (congrArg (fun B => byteAt B 0) h) (by decide)

/-- Every clause: the host's write of SEED, LEN and LIMIT, and a SORT's of LIMIT. -/
theorem witness_WritersOfTheRegisters :
    (∃ s t : State, step s = .next t ∧ nextMove s = .host ∧ t.seed ≠ s.seed) ∧
    (∃ s t : State, step s = .next t ∧ nextMove s = .host ∧ t.len ≠ s.len) ∧
    (∃ s t : State, step s = .next t ∧ nextMove s = .host ∧ t.limit ≠ s.limit) ∧
    (∃ s t : State, step s = .next t ∧ nextMove s = .engine ∧ t.limit ≠ s.limit) := by
  refine ⟨⟨State.reset.hostNext (.wr (wordOf 0x008) 1), _, rfl, rfl, by decide⟩,
    ⟨State.reset.hostNext (.wr (wordOf 0x010) 256), _, rfl, rfl, by decide⟩,
    ⟨State.reset.hostNext (.wr (wordOf 0x018) 1), _, rfl, rfl, by decide⟩, ?_⟩
  have h : ∃ t, step running = .next t ∧ t.limit = 0 :=
    shows_eq_some (f := State.limit) (by decide)
  obtain ⟨t, e, hl⟩ := h
  exact ⟨running, t, e, rfl, by rw [hl]; decide⟩

/-- Every clause: SEEDED by SEED, SORTED by a SORT and by an acceptance, EXHAUSTED the same, ERR by CLRERR and by
a rejection. -/
theorem witness_WritersOfTheStatusBits :
    (∃ s t : State, step s = .next t ∧ nextMove s = .engine ∧ t.seeded ≠ s.seeded) ∧
    (∃ s t : State, step s = .next t ∧ nextMove s = .host ∧ t.sorted ≠ s.sorted) ∧
    (∃ s t : State, step s = .next t ∧ nextMove s = .host ∧ t.exhausted ≠ s.exhausted) ∧
    (∃ s t : State, step s = .next t ∧ nextMove s = .engine ∧ t.sorted ≠ s.sorted) ∧
    (∃ s t : State, step s = .next t ∧ nextMove s = .engine ∧ t.exhausted ≠ s.exhausted) ∧
    (∃ s t : State, step s = .next t ∧ nextMove s = .engine ∧ t.err ≠ s.err) ∧
    (∃ s t : State, step s = .next t ∧ nextMove s = .host ∧ t.err ≠ s.err) := by
  refine ⟨⟨latched .seed, _, rfl, rfl, by decide⟩,
    ⟨{ State.reset with sorted := true }.hostNext (hostCmd (.sort true)), _, rfl, rfl, by decide⟩,
    ⟨{ State.reset with exhausted := true }.hostNext (hostCmd (.sort true)), _, rfl, rfl, by decide⟩, ?_, ?_,
    ⟨{ latched .clrerr with err := 3 }, _, rfl, rfl, by decide⟩,
    ⟨State.reset.hostNext (hostCmd .gen), _, rfl, rfl, by decide⟩⟩
  · obtain ⟨t, e, h⟩ := shows_eq_some (f := State.sorted) (x := true)
      (o := step { running with len := 1 }) (by decide)
    exact ⟨_, t, e, rfl, by rw [h]; decide⟩
  · obtain ⟨t, e, h⟩ := shows_eq_some (f := State.exhausted) (x := true)
      (o := step { running with limit := 0 }) (by decide)
    exact ⟨_, t, e, rfl, by rw [h]; decide⟩

theorem witness_EveryAcceptedCommandFinishes : running.Inv ∧ running.seq = .run (.sort true) := ⟨running_inv, rfl⟩

/-- The longest length, 256, has a keystream program. -/
theorem witness_KeystreamProcedureDerives : State.reset.seq = .idle ∧ State.reset.busy = false ∧
    ∃ p, keystreamProgram 0 256 = some p :=
  ⟨rfl, rfl, _, by rw [keystreamProgram, if_pos (by decide)]⟩

/-- The whole procedure for N = 0 from reset, with an interleaving that starts with two engine moves. -/
def keystreamStart : State :=
  { State.reset with
    host := { prog := (keystreamProgram 0 0).getD [], reads := [], key := [] }, sched := [.engine, .engine] }

theorem keystreamProgram_zero : keystreamProgram 0 0 = some keystreamStart.host.prog := by
  simp [keystreamStart, keystreamProgram, lengthOk]

theorem witness_KeystreamIndependentOfInterleaving : ∃ (s t : State) (seed : DWord) (n k : Nat) (p : List HostOp),
    s.seq = .idle ∧ s.busy = false ∧ keystreamProgram seed n = some p ∧ s.host.prog = p ∧
    (∀ m, m ∈ s.sched → m = .host ∨ m = .engine) ∧
    Host.Core.run Sys2Proof.core k s = .next t ∧ t.host.prog = [] := by
  have e : shows (fun t => t.host.prog) (Host.Core.run Sys2Proof.core 200 keystreamStart) = some [] := by
    decide
  obtain ⟨t, ht, hp⟩ := shows_eq_some e
  exact ⟨keystreamStart, t, 0, 0, 200, _, rfl, rfl, keystreamProgram_zero, rfl, by decide, ht, hp⟩

theorem witness_KeystreamLengthBound : (256 : Nat) ≤ 256 ∧ 256 < 257 ∧ State.reset.busy = false ∧ 257 < 2 ^ 32 := by decide

theorem witness_KeystreamRoundTrip : (4 : Nat) ≤ 256 ∧ ([0x66, 0x6c, 0x61, 0x67] : List Byte).length = 4 := by decide

end Sys2Proof.Tests
end

section
/-! The family 20_memory: what a write of the port changes (O11), what a read of it returns (O14) and that a read
has no side effect (O15). -/

namespace Sys2Proof.Machine

/-! ## Halves and words -/

@[simp] theorem lo32_withLo (x : DWord) (v : Word) : lo32 (withLo x v) = v := lo32_joinHalves _ _

@[simp] theorem hi32_withLo (x : DWord) (v : Word) : hi32 (withLo x v) = hi32 x := hi32_joinHalves _ _

@[simp] theorem lo32_withHi (x : DWord) (v : Word) : lo32 (withHi x v) = lo32 x := lo32_joinHalves _ _

@[simp] theorem hi32_withHi (x : DWord) (v : Word) : hi32 (withHi x v) = v := hi32_joinHalves _ _

@[simp] theorem withLo_withLo (x : DWord) (v : Word) : withLo (withLo x v) v = withLo x v :=
  congrArg (joinHalves · v) (hi32_withLo x v)

@[simp] theorem withHi_withHi (x : DWord) (v : Word) : withHi (withHi x v) v = withHi x v :=
  congrArg (joinHalves v) (lo32_withHi x v)

@[simp] theorem storeWord_storeWord (B : Buffer) (w : Nat) (v : Word) :
    storeWord (storeWord B w v) w v = storeWord B w v := by
  refine buffer_ext fun k hk => ?_
  by_cases hw : k / 4 = w <;> simp [byteAt_storeWord, hk, hw]

/-- Bytes `4w` to `4w + 3` after a store are the byte lanes of the stored word (rule R53). -/
theorem byteAt_storeWord_lane (B : Buffer) (v : Word) {w b : Nat} (hw : w < 64) (hb : b < 4) :
    byteAt (storeWord B w v) (4 * w + b) = wordByte v b := by
  rw [byteAt_storeWord _ _ _ (by omega), if_pos (by omega)]
  congr 1; omega

theorem byteAt_storeWord_ne (B : Buffer) (v : Word) {w k : Nat} (hk : k < 256) (hne : k / 4 ≠ w) :
    byteAt (storeWord B w v) k = byteAt B k := by
  rw [byteAt_storeWord _ _ _ hk, if_neg hne]

/-- Byte `b` of the window word at byte offset `off` of a buffer is byte `off + b` of the buffer (rule R53). -/
theorem wordByte_packWord_offset (B : Buffer) {off b : Nat} (h4 : off % 4 = 0) (hb : b < 4) :
    wordByte (packWord B (off / 4)) b = byteAt B (off + b) := by
  rw [wordByte_packWord _ _ hb]
  congr 1; omega

/-! ## The step-count window -/

theorem stepcWord_low {k : Nat} (hk : k ≤ 20) : stepcWord (2 * k) = BitVec.ofNat 32 k.factorial := by
  interval_cases k <;> decide

theorem stepcWord_high {k : Nat} (hk : k ≤ 20) :
    stepcWord (2 * k + 1) = BitVec.ofNat 32 (k.factorial / 2 ^ 32) := by
  interval_cases k <;> decide

/-! ## Writes -/

@[simp] theorem performWrite_busy (r : Region) (v : Word) (s : State) : (performWrite r v s).busy = s.busy := by
  cases r <;> rfl

theorem performWrite_performWrite (r : Region) (v : Word) (s : State) :
    performWrite r v (performWrite r v s) = performWrite r v s := by
  cases r <;> simp [performWrite]

theorem dataWrite_badLen {v : Word} {s : State} (hb : s.busy = false) (hv : v > 256) :
    dataWrite .len v s = raiseError .badValue s := by
  rw [dataWrite, if_neg (by simp [Region.writable]), if_neg (by simp [hb]), if_pos ⟨rfl, hv⟩]

theorem dataWrite_performs {r : Region} {v : Word} {s : State} (hw : r.writable = true) (hb : s.busy = false)
    (hv : r = .len → ¬ v > 256) : dataWrite r v s = performWrite r v s := by
  rw [dataWrite, if_neg (by simp [hw]), if_neg (by simp [hb]), if_neg fun hr => hv hr.1 hr.2]

/-- A data write made twice has the effect of one, whichever way its checks go (rule R58, rule R204). -/
theorem dataWrite_dataWrite (r : Region) (v : Word) (s : State) :
    dataWrite r v (dataWrite r v s) = dataWrite r v s := by
  rcases dataWrite_cases r v s with ⟨hw, h⟩ | ⟨hw, hb, h⟩ | ⟨rfl, hb, hv, h⟩ | ⟨hw, hb, hv, h⟩ <;> rw [h]
  · simp [dataWrite, hw, raiseError]
  · simp [dataWrite, hw, hb, raiseError]
  · exact dataWrite_badLen hb hv
  · rw [dataWrite_performs hw (by simp [hb]) hv, performWrite_performWrite]

theorem memWrite_of_ne_cmd {a : WordAddr} (h : offsetOf a ≠ 0) (v : Word) (s : State) :
    memWrite a v s = dataWrite (regionOf a) v s :=
  if_neg fun hr => h (regionOf_eq_cmd.1 hr)

/-- A host write that passes its checks is performed (rule R204). -/
theorem step_wr_performs {s : State} {a : WordAddr} {v : Word} {r : Region} (hr : regionOf a = r)
    (hc : r ≠ .cmd) (hw : r.writable = true) (hb : s.busy = false) (hv : r = .len → v.toNat ≤ 256) :
    step (s.hostNext (.wr a v)) = .next (performWrite r v s) := by
  have hv' : r = .len → ¬ v > 256 := fun hl => by simpa [BitVec.le_def] using hv hl
  rw [step_hostNext_wr, memWrite, hr, if_neg hc, dataWrite_performs hw hb hv']

/-- A host write of a LEN value above 256 is BAD_VALUE (rule R204). -/
theorem step_wr_badLen {s : State} {a : WordAddr} {v : Word} (hr : regionOf a = .len) (hb : s.busy = false)
    (hv : 256 < v.toNat) : step (s.hostNext (.wr a v)) = .next (raiseError .badValue s) := by
  have hv' : v > 256 := by simpa [BitVec.lt_def] using hv
  rw [step_hostNext_wr, memWrite, hr, if_neg nofun, dataWrite_badLen hb hv']

theorem step_wr_twice {s t : State} {a : WordAddr} {v : Word} (ha : offsetOf a ≠ 0)
    (h : step (s.hostNext (.wr a v)) = .next t) : step (t.hostNext (.wr a v)) = .next t := by
  rw [step_hostNext_wr, memWrite_of_ne_cmd ha] at h ⊢
  obtain rfl := Host.Outcome.next.inj h
  rw [dataWrite_dataWrite]

/-- The low nine bits of a legal LEN value are the value (rule R23). -/
theorem extractLen_toNat {v : Word} (hv : v.toNat ≤ 256) : (v.extractLsb' 0 9).toNat = v.toNat := by
  simp only [BitVec.extractLsb'_toNat, Nat.shiftRight_zero]
  omega

/-- Settles O11: each word's write is performed, and what `performWrite` stores is read off lane by lane. -/
theorem dataWriteEffects : Obligations.DataWriteEffects := by
  intro s v hb
  refine ⟨?cmd, ⟨withLo s.seed v, ?seedLo, lo32_withLo _ _, hi32_withLo _ _⟩,
    ⟨withHi s.seed v, ?seedHi, hi32_withHi _ _, lo32_withHi _ _⟩,
    ⟨withLo s.limit v, ?limitLo, lo32_withLo _ _, hi32_withLo _ _⟩,
    ⟨withHi s.limit v, ?limitHi, hi32_withHi _ _, lo32_withHi _ _⟩,
    fun hv => step_wr_badLen (by decide) hb hv,
    fun hv => ⟨v.extractLsb' 0 9, ?len, extractLen_toNat hv⟩,
    fun w hw => ⟨storeWord s.wbuf w v, ?wbuf, fun b => byteAt_storeWord_lane _ _ hw,
      fun k => byteAt_storeWord_ne _ _⟩,
    fun a t => step_wr_twice⟩
  case cmd => rw [step_hostNext_wr, memWrite, if_pos (by decide)]
  case seedLo => exact step_wr_performs (r := .seedLo) (by decide) (by decide) rfl hb nofun
  case seedHi => exact step_wr_performs (r := .seedHi) (by decide) (by decide) rfl hb nofun
  case limitLo => exact step_wr_performs (r := .limitLo) (by decide) (by decide) rfl hb nofun
  case limitHi => exact step_wr_performs (r := .limitHi) (by decide) (by decide) rfl hb nofun
  case len => exact step_wr_performs (r := .len) (by decide) (by decide) rfl hb fun _ => hv
  case wbuf => exact step_wr_performs (r := .wbuf w) (regionOf_wbuf hw) nofun rfl hb nofun

/-! ## Reads -/

/-- The state after a read: only the count of free values can differ, by one (rule R56, rule R57). -/
theorem memRead_state_eq (a : WordAddr) (s : State) :
    (memRead a s).2 = { s with draws :=
      if s.busy = true ∧ (regionOf a).engineOwned = true then s.draws + 1 else s.draws } := by
  by_cases h : s.busy = true ∧ (regionOf a).engineOwned = true <;> simp [memRead, freeWord, h]

theorem regionOf_of_offset {a : WordAddr} {off : Nat} {r : Region} (e : offsetOf a = off) (hr : regionAt off = r) :
    regionOf a = r := by
  rw [regionOf, e, hr]

/-- A word is read exactly unless it is engine-owned and BUSY = 1 (rule R55, rule R56). -/
theorem memRead_exact {a : WordAddr} {s : State} (r : Region) (hr : regionOf a = r)
    (h : s.busy = false ∨ r.engineOwned = false) : (memRead a s).1 = exactRead r s := by
  subst hr
  rcases h with h | h <;> simp [memRead, h]

theorem step_rd_idle (a : WordAddr) (s : State) (hb : s.busy = false) :
    step (s.hostNext (.rd a)) = .next (recordRead a (exactRead (regionOf a) s) s) := by
  rw [step_hostNext_rd, memRead_idle a s hb]

/-- What a word reads does not depend on the host's record of reads (rule R57). -/
theorem exactRead_recordRead (r : Region) (a : WordAddr) (v : Word) (s : State) :
    exactRead r (recordRead a v s) = exactRead r s := by
  cases r <;> rfl

/-- Settles O14: the region of the offset says which word `exactRead` returns. -/
theorem hostReads : Obligations.HostReads := by
  intro s a
  have h4 : offsetOf a % 4 = 0 := (offsetOf_bounds a).2
  refine ⟨(memRead a s).1, ?state,
    fun e => memRead_exact .cmd (regionOf_of_offset e rfl) (.inr rfl),
    fun e => memRead_exact .status (regionOf_of_offset e rfl) (.inr rfl),
    fun e => memRead_exact .seedLo (regionOf_of_offset e rfl) (.inr rfl),
    fun e => memRead_exact .seedHi (regionOf_of_offset e rfl) (.inr rfl), ?len,
    fun e hb => memRead_exact .limitLo (regionOf_of_offset e rfl) (.inl hb),
    fun e hb => memRead_exact .limitHi (regionOf_of_offset e rfl) (.inl hb),
    ?perm, ?wbuf, ?stepcLow, ?stepcHigh, ?unmapped⟩
  case state => rw [step_hostNext_rd, memRead_state_eq]; simp only [regionOf_engineOwned, recordRead]
  case len =>
    intro e
    rw [memRead_exact .len (regionOf_of_offset e rfl) (.inr rfl)]
    exact BitVec.toNat_setWidth_of_le (by decide)
  case perm =>
    intro b hlo hhi hb hlt
    rw [memRead_exact _ (regionAt_perm ⟨hlo, hhi⟩) (.inl hb)]
    exact wordByte_packWord_offset _ (by omega) hlt
  case wbuf =>
    intro b hlo hhi hb hlt
    rw [memRead_exact _ (regionAt_wbuf ⟨hlo, hhi⟩) (.inl hb)]
    exact wordByte_packWord_offset _ (by omega) hlt
  case stepcLow =>
    intro k hk e
    have hw : (offsetOf a - 0x300) / 4 = 2 * k := by omega
    rw [memRead_exact _ (regionAt_stepc (by omega)) (.inr rfl), exactRead, hw, stepcWord_low hk]
  case stepcHigh =>
    intro k hk e
    have hw : (offsetOf a - 0x300) / 4 = 2 * k + 1 := by omega
    rw [memRead_exact _ (regionAt_stepc (by omega)) (.inr rfl), exactRead, hw, stepcWord_high hk]
  case unmapped => exact fun h => memRead_exact .unmapped (regionAt_unmapped h) (.inr rfl)

/-- Settles O15: a read touches the record of reads and the count of free values only, and neither is read by an
exact read. -/
theorem readsHaveNoSideEffect : Obligations.ReadsHaveNoSideEffect := by
  intro s a
  obtain ⟨d, hd⟩ := memRead_state a s
  refine ⟨(memRead a s).1, d, by rw [step_hostNext_rd, hd]; rfl, fun hb t ht => ?_⟩
  rw [step_rd_idle a s hb] at ht
  obtain rfl := Host.Outcome.next.inj ht
  rw [step_rd_idle a (recordRead a _ s) hb, exactRead_recordRead, memRead_idle a s hb]
  rfl

end Sys2Proof.Machine
end

section
/-! The family 30_encoding: the decoder's checks in their order and the seven legal words (O2), and that an illegal
word is rejected at the CMD write (O9). -/

namespace Sys2Proof

/-! ## Words and their fields -/

/-- The three fields are the whole word (rule R80). -/
@[simp] theorem CmdFields.toWord_ofWord (w : Word) : (CmdFields.ofWord w).toWord = w := by
  refine BitVec.eq_of_getLsbD_eq fun k hk => ?_
  simp only [CmdFields.toWord, CmdFields.ofWord, BitVec.getLsbD_append, BitVec.getLsbD_extractLsb',
    BitVec.getLsbD_ofBool]
  rcases lt_trichotomy k 8 with hlt | rfl | hgt
  · simp [hlt, show k < 9 by omega]
  · simp
  · simp [show ¬ k < 9 by omega, show k - 9 < 23 by omega, show 9 + (k - 9) = k by omega]

/-- Every command's fields are legal and are the fields of its word (rules R80, R81, R84). -/
theorem fields_encode (i : Instr) : Laws.Fields.Statement i :=
  match i with
  | .nop => Laws.Fields.nop
  | .seed => Laws.Fields.seed
  | .gen => Laws.Fields.gen
  | .loadc => Laws.Fields.loadc
  | .sort a => Laws.Fields.sort a
  | .clrerr => Laws.Fields.clrerr

theorem eq_encode_iff_fields {w : Word} {i : Instr} : w = encode i ↔ CmdFields.ofWord w = i.fields := by
  constructor
  · rintro rfl
    exact (fields_encode i).2
  · intro h
    rw [encode, ← h, CmdFields.toWord_ofWord]

/-! ## The decoder, check by check (rule R85) -/

theorem decode_reservedBits {w : Word} (hr : w.extractLsb' 9 23 ≠ 0) : decode w = .error .reservedBits :=
  if_pos hr

theorem decode_sort {w : Word} (hr : w.extractLsb' 9 23 = 0) (ho : w.extractLsb' 0 8 = 4) :
    decode w = .ok (.sort (w.getLsbD 8)) := by
  simp [decode, CmdFields.ofWord, hr, ho]

theorem decode_accelOutsideSort {w : Word} (hr : w.extractLsb' 9 23 = 0) (ho : w.extractLsb' 0 8 ≠ 4)
    (ha : w.getLsbD 8 = true) : decode w = .error .accelOutsideSort := by
  simp only [decode, CmdFields.ofWord, hr, ho, ha, ne_eq, not_true_eq_false, if_false, if_true]

theorem decode_reservedOpcode {w : Word} (hr : w.extractLsb' 9 23 = 0) (ha : w.getLsbD 8 = false)
    (ho : 6 ≤ (w.extractLsb' 0 8).toNat) : decode w = .error .reservedOpcode := by
  have hne : ∀ c : BitVec 8, c.toNat < 6 → w.extractLsb' 0 8 ≠ c := by
    rintro c hc rfl
    omega
  simp only [decode, CmdFields.ofWord, hr, ha, hne 0 (by decide), hne 1 (by decide), hne 2 (by decide),
    hne 3 (by decide), hne 4 (by decide), hne 5 (by decide), ne_eq, not_true_eq_false, Bool.false_eq_true, if_false]

/-- A word decodes to the command that has its fields (rule R84). -/
theorem decode_eq_ok_iff_fields {w : Word} {i : Instr} :
    decode w = .ok i ↔ CmdFields.ofWord w = i.fields := by
  unfold decode
  generalize CmdFields.ofWord w = f
  constructor
  · obtain ⟨opc, a, rsv⟩ := f
    intro h
    dsimp only at h
    -- The checks of a branch that answers with a command fix all three fields; the other branches answer an error.
    split_ifs at h <;> cases h <;> simp_all [Instr.fields]
  · rintro rfl
    cases i <;> rfl

theorem decode_eq_ok_iff_encode {w : Word} {i : Instr} : decode w = .ok i ↔ w = encode i :=
  decode_eq_ok_iff_fields.trans eq_encode_iff_fields.symm

/-- A word without bit 8 and RSV decodes to the command of its opcode. -/
theorem decode_noAccel {w : Word} {i : Instr} {o : BitVec 8} (hi : i.fields = ⟨o, false, 0⟩)
    (hr : w.extractLsb' 9 23 = 0) (ha : w.getLsbD 8 = false) (ho : w.extractLsb' 0 8 = o) :
    decode w = .ok i := by
  rw [decode_eq_ok_iff_fields, hi, CmdFields.ofWord, hr, ha, ho]

/-- The seven words of rule R85 are the words of the commands. -/
theorem exists_eq_encode_iff {w : Word} : (∃ i, w = encode i) ↔
    w ∈ [0x00000000, 0x00000001, 0x00000002, 0x00000003, 0x00000004, 0x00000104, (0x00000005 : Word)] := by
  constructor
  · rintro ⟨i, rfl⟩
    cases i with
    | sort a => cases a <;> decide
    | nop | seed | gen | loadc | clrerr => decide
  · simp only [List.mem_cons, List.not_mem_nil, or_false]
    rintro (rfl | rfl | rfl | rfl | rfl | rfl | rfl)
    exacts [⟨.nop, rfl⟩, ⟨.seed, rfl⟩, ⟨.gen, rfl⟩, ⟨.loadc, rfl⟩, ⟨.sort false, rfl⟩, ⟨.sort true, rfl⟩,
      ⟨.clrerr, rfl⟩]

/-- Settles O2: each clause is the decoder's lemma for that check, and the words that decode are the words of the
commands. -/
theorem decodeChecksInOrder : Obligations.DecodeChecksInOrder := fun _ =>
  ⟨decode_reservedBits, decode_sort, decode_accelOutsideSort, decode_noAccel rfl, decode_noAccel rfl,
    decode_noAccel rfl, decode_noAccel rfl, decode_noAccel rfl, decode_reservedOpcode,
    (exists_congr fun _ => decode_eq_ok_iff_encode).trans exists_eq_encode_iff⟩

/-! ## Illegal words (rule R86) -/

/-- The three checks of a legal word, on its bits (rules R81, R82, R84). -/
theorem wf_ofWord_iff {w : Word} : (CmdFields.ofWord w).wf = true ↔
    w.extractLsb' 9 23 = 0 ∧ (w.extractLsb' 0 8).toNat ≤ 5 ∧ (w.getLsbD 8 = false ∨ w.extractLsb' 0 8 = 4) := by
  simp [CmdFields.wf, CmdFields.rsvOk, CmdFields.opcOk, CmdFields.accelOk, CmdFields.ofWord, BitVec.le_def,
    and_assoc]

theorem wf_of_decode_ok {w : Word} {i : Instr} (h : decode w = .ok i) : (CmdFields.ofWord w).wf = true := by
  rw [decode_eq_ok_iff_fields.1 h]
  exact (fields_encode i).1

theorem decode_error_of_not_wf {w : Word} (h : ¬ (CmdFields.ofWord w).wf = true) : ∃ e, decode w = .error e := by
  cases hd : decode w with
  | error e => exact ⟨e, rfl⟩
  | ok i => exact absurd (wf_of_decode_ok hd) h

namespace Machine

theorem acceptCommand_illegal {v : Word} {s : State} {e : DecodeError} (hb : s.busy = false)
    (hd : decode v = .error e) : acceptCommand v s = raiseError .illegalCmd s := by
  simp [acceptCommand, hb, hd]

/-- A host write of CMD is command acceptance (rule R58). -/
theorem step_wr_cmd (s : State) (v : Word) :
    step (s.hostNext (.wr (wordOf 0x000) v)) = .next (acceptCommand v s) := by
  rw [step_hostNext_wr, memWrite, if_pos (by decide)]

/-- Settles O9: each of the three shapes fails a check that every word that decodes passes. -/
theorem illegalWordsAreRejected : Obligations.IllegalWordsAreRejected := by
  intro s v hb hill
  have hwf : ¬ (CmdFields.ofWord v).wf = true := by
    rw [wf_ofWord_iff]
    rintro ⟨hrsv, hopc, haccel⟩
    rcases hill with h | h | ⟨ha, h⟩
    · omega
    · exact h hrsv
    · exact haccel.elim (by rw [ha]; decide) h
  obtain ⟨e, hd⟩ := decode_error_of_not_wf hwf
  rw [step_wr_cmd, acceptCommand_illegal hb hd]
  rfl

end Machine
end Sys2Proof
end

section
/-! The family 40_generator: SEED (O23), GEN as a traced shuffle and two raw draws (O24), and the halves of LIMIT
(O25). Before them, for every command, how the port treats its word and what a `RUN` of it does. -/

namespace Sys2Proof.Machine

/-! ## The port's treatment of a command word -/

theorem decode_encode (i : Instr) : decode (encode i) = .ok i := decode_eq_ok_iff_encode.2 rfl

theorem acceptCommand_busy {v : Word} {s : State} (hb : s.busy = true) :
    acceptCommand v s = raiseError .cmdBusy s := if_pos hb

theorem acceptCommand_encode {i : Instr} {s : State} (hb : s.busy = false) (hs : i = .gen → s.seeded = true) :
    acceptCommand (encode i) s = latchCommand i s := by
  rcases acceptCommand_cases (encode i) s with ⟨hb', -⟩ | ⟨-, ⟨e, hd⟩, -⟩ | ⟨-, hd, hs', -⟩ | ⟨-, j, hd, -, h⟩
  · simp [hb] at hb'
  · simp [decode_encode] at hd
  · rw [decode_encode, Except.ok.injEq] at hd
    simp [hs hd] at hs'
  · rw [decode_encode, Except.ok.injEq] at hd
    rw [h, hd]

theorem acceptCommand_gen_notSeeded {s : State} (hb : s.busy = false) (hs : s.seeded = false) :
    acceptCommand (encode .gen) s = raiseError .notSeeded s := by
  simp [acceptCommand, hb, decode_encode, needsSeed, hs]

/-- Opcode 4 is SORT's alone (rule R84). -/
theorem encode_opc_ne_sort {i : Instr} (h : ∀ a, i ≠ .sort a) : (encode i).extractLsb' 0 8 ≠ 4 := by
  cases i with
  | sort a => exact absurd rfl (h a)
  | nop | seed | gen | loadc | clrerr => decide

theorem latchCommand_sort (a : Bool) (s : State) : latchCommand (.sort a) s =
    { s with busy := true, seq := .run (.sort a), sorted := false, exhausted := false } := by
  simp [latchCommand, isSort]

theorem latchCommand_of_ne_sort {i : Instr} (h : ∀ a, i ≠ .sort a) (s : State) :
    latchCommand i s = { s with busy := true, seq := .run i } := by
  cases i with
  | sort a => exact absurd rfl (h a)
  | nop | seed | gen | loadc | clrerr => simp [latchCommand, isSort]

/-- The port treats every command's word as its rule says (rules R202, R86). -/
theorem commandPort (i : Instr) : CommandPort i := by
  refine ⟨fun s hb => ?busy, fun s hb hs hne => ?accept, fun s hb => ?sort, fun s v hb hopc hill => ?illegal⟩
  case busy => rw [hostCmd, step_wr_cmd, acceptCommand_busy hb]; rfl
  case accept => rw [hostCmd, step_wr_cmd, acceptCommand_encode hb hs, latchCommand_of_ne_sort hne]
  case sort =>
    rintro ⟨a, rfl⟩
    rw [hostCmd, step_wr_cmd, acceptCommand_encode hb (by simp), latchCommand_sort]
  case illegal =>
    refine illegalWordsAreRejected s v hb (.inr (hill.imp_right fun ⟨ha, hne⟩ => ⟨ha, ?_⟩))
    rw [hopc]
    exact encode_opc_ne_sort hne

/-! ## Runs of a host program -/

theorem run_succ {s t : State} (k : Nat) (h : step s = .next t) :
    Host.Core.run Sys2Proof.core (k + 1) s = Host.Core.run Sys2Proof.core k t := by
  simp only [Host.Core.run, show Sys2Proof.core.step s = .next t from h]

/-- On an idle block with no move prescribed the host makes the next step of its program (log entry 5). -/
theorem step_withProgram_cons {s : State} (hq : s.seq = .idle) (op : HostOp) (p : List HostOp) :
    step (s.withProgram (op :: p)) = step ((s.withProgram p).hostNext op) := by
  have hm : nextMove (s.withProgram (op :: p)) = .host := by simp [nextMove, hq]
  rw [step, hm]
  rfl

/-- A write in a host program that passes its checks is performed (rule R204). -/
theorem step_withProgram_performs {s : State} {a : WordAddr} {v : Word} {r : Region} {p : List HostOp}
    (hq : s.seq = .idle) (hb : s.busy = false) (hr : regionOf a = r) (hc : r ≠ .cmd) (hw : r.writable = true)
    (hv : r = .len → v.toNat ≤ 256) :
    step (s.withProgram (.wr a v :: p)) = .next (performWrite r v (s.withProgram p)) :=
  (step_withProgram_cons hq _ p).trans (step_wr_performs hr hc hw hb hv)

/-- A latched command runs next when no move is prescribed (log entry 5). -/
theorem step_latchCommand_withProgram (i : Instr) (s : State) (p : List HostOp) :
    step (latchCommand i (s.withProgram p)) = exec i (latchCommand i (s.withProgram p)) := rfl

theorem statusWord_getLsbD_zero (s : State) : (statusWord s).getLsbD 0 = s.busy := by
  simp only [statusWord, BitVec.getLsbD_append]
  simp

/-- A POLL that reads BUSY = 0 is done (rule R88). -/
theorem step_poll_idle {s : State} (hb : s.busy = false) :
    step (s.hostNext .poll) = .next (recordRead (wordOf 0x004) (statusWord s) s) := by
  have hread : (memRead (wordOf 0x004) s).1.getLsbD 0 = false := by
    rw [memRead_exact .status (by decide) (.inr rfl), exactRead, statusWord_getLsbD_zero, hb]
  rw [step_hostNext]
  simp only [hostStep, portRead, Bool.false_eq_true, if_false, memRead_host, hread]
  rw [memRead_idle _ _ hb]
  rfl

/-- `WR64 SEED, v` (rule R88) in a host program. -/
theorem run_hostWriteSeed {s : State} (hq : s.seq = .idle) (hb : s.busy = false) (v : DWord) (p : List HostOp)
    (k : Nat) : Host.Core.run Sys2Proof.core (k + 2) (s.withProgram (hostWriteSeed v ++ p)) =
      Host.Core.run Sys2Proof.core k (({ s with seed := v } : State).withProgram p) := by
  have hlo := step_withProgram_performs (a := wordOf 0x008) (v := lo32 v) (r := .seedLo)
    (p := .wr (wordOf 0x00C) (hi32 v) :: p) hq hb (by decide) nofun rfl nofun
  have hhi := step_withProgram_performs (s := { s with seed := withLo s.seed (lo32 v) }) (a := wordOf 0x00C)
    (v := hi32 v) (r := .seedHi) (p := p) hq hb (by decide) nofun rfl nofun
  have hv : withHi (withLo s.seed (lo32 v)) (hi32 v) = v := by rw [withHi, lo32_withLo, joinHalves_hi32_lo32]
  exact ((run_succ _ hlo).trans (run_succ _ hhi)).trans (by simp only [performWrite, hv, State.withProgram])

/-- `RUN i` (rule R88) in a host program, for a command that is accepted and finishes in one engine step: the host's
POLL then reads the STATUS the command left. -/
theorem run_hostRun {i : Instr} {s t : State} {p : List HostOp} (hq : s.seq = .idle) (hb : s.busy = false)
    (hs : i = .gen → s.seeded = true)
    (hexec : exec i (latchCommand i (s.withProgram (.poll :: p))) = .next (t.withProgram (.poll :: p)))
    (htq : t.seq = .idle) (htb : t.busy = false) (k : Nat) :
    Host.Core.run Sys2Proof.core (k + 3) (s.withProgram (hostRun i ++ p)) =
      Host.Core.run Sys2Proof.core k (recordRead (wordOf 0x004) (statusWord t) (t.withProgram p)) := by
  have haccept : step (s.withProgram (hostRun i ++ p)) = .next (latchCommand i (s.withProgram (.poll :: p))) := by
    rw [← acceptCommand_encode (s := s.withProgram (.poll :: p)) hb hs, ← step_wr_cmd]
    exact step_withProgram_cons hq _ _
  have hengine := (step_latchCommand_withProgram i s (.poll :: p)).trans hexec
  have hpoll := (step_withProgram_cons htq .poll p).trans (step_poll_idle htb)
  exact (run_succ _ haccept).trans ((run_succ _ hengine).trans (run_succ _ hpoll))

/-! ## SEED -/

/-- Settles O23: the engine step is `seedWith` at the modelled generator, and the example is the run of `WR64 SEED`
followed by the run of `RUN SEED`. -/
theorem seedCommand : Obligations.SeedCommand := by
  refine ⟨rfl, commandPort .seed, fun _ => rfl, ?_⟩
  have hwrite := run_hostWriteSeed (s := State.reset) rfl rfl 0 (hostRun .seed) 3
  have hseed := run_hostRun (i := .seed) (s := { State.reset with seed := 0 }) (p := [])
    (t := seedWith Config.prng (latchCommand .seed { State.reset with seed := 0 })) rfl rfl (by simp) rfl rfl rfl 0
  exact ⟨_, hwrite.trans hseed, rfl, rfl, by decide⟩

/-! ## The shuffle

First `swapBytes` read at each of the two swapped places and elsewhere (rule R10), the form in which `ShuffleTrace`
tells a swap. -/

theorem byteAt_swapBytes_left (B : Buffer) {p : Nat} (q : Nat) (hp : p < 256) :
    byteAt (swapBytes B p q) p = byteAt B q := by
  rw [byteAt_swapBytes _ _ _ hp, if_pos rfl]

theorem byteAt_swapBytes_right (B : Buffer) (p : Nat) {q : Nat} (hq : q < 256) :
    byteAt (swapBytes B p q) q = byteAt B p := by
  by_cases h : q = p
  · rw [h, swapBytes_self]
  · rw [byteAt_swapBytes _ _ _ hq, if_neg h, if_pos rfl]

theorem byteAt_swapBytes_of_ne (B : Buffer) {p q k : Nat} (hk : k < 256) (hp : k ≠ p) (hq : k ≠ q) :
    byteAt (swapBytes B p q) k = byteAt B k := by
  rw [byteAt_swapBytes _ _ _ hk, if_neg hp, if_neg hq]

/-- The shuffle from index `n` down, draw by draw: the generator state and the buffer before the draw for each
index, with one draw and one swap from an index to the next lower one (rules R103, R104). -/
theorem shuffle_steps (P : Prng) (n : Nat) (g : PrngState) (B : Buffer) :
    ∃ (gs : Nat → PrngState) (bs : Nat → Buffer), gs n = g ∧ bs n = B ∧
      (∀ j, j < n → gs j = (P.draw (gs (j + 1)) (j + 1)).2 ∧
        bs j = swapBytes (bs (j + 1)) (j + 1) (P.draw (gs (j + 1)) (j + 1)).1.val) ∧
      gs 0 = (shuffle P n g B).1 ∧ bs 0 = (shuffle P n g B).2 := by
  induction n generalizing g B with
  | zero => exact ⟨fun _ => g, fun _ => B, rfl, rfl, nofun, rfl, rfl⟩
  | succ n ih =>
    obtain ⟨gs, bs, hg, hB, hstep, hg0, hB0⟩ :=
      ih (P.draw g (n + 1)).2 (swapBytes B (n + 1) (P.draw g (n + 1)).1.val)
    refine ⟨Function.update gs (n + 1) g, Function.update bs (n + 1) B, by simp, by simp, fun j hj => ?_,
      by simpa [shuffle] using hg0, by simpa [shuffle] using hB0⟩
    rcases Nat.lt_succ_iff_lt_or_eq.1 hj with hlt | rfl
    · simpa [Function.update_of_ne, show j ≠ n + 1 by omega, hlt.ne] using hstep j hlt
    · simp [hg, hB]

/-- GEN's shuffle of the identity is a shuffle as rules R103 and R104 describe it. -/
theorem shuffleTrace_identity (P : Prng) (g : PrngState) :
    ShuffleTrace P g (shuffle P 255 g identityBuffer).1 (shuffle P 255 g identityBuffer).2 := by
  obtain ⟨gs, bs, hg, hB, hstep, hg0, hB0⟩ := shuffle_steps P 255 g identityBuffer
  refine ⟨gs, bs, hg, fun k hk => by rw [hB, byteAt_identityBuffer hk], fun j h1 hj => ?_, hg0, hB0⟩
  obtain ⟨i, rfl⟩ : ∃ i, j = i + 1 := ⟨j - 1, by omega⟩
  obtain ⟨hgs, hbs⟩ := hstep i (by omega)
  have hd := (P.draw (gs (i + 1)) (i + 1)).1.isLt
  rw [Nat.add_sub_cancel, hbs]
  exact ⟨hgs, byteAt_swapBytes_left _ _ (by omega), byteAt_swapBytes_right _ _ (by omega),
    fun k hk => byteAt_swapBytes_of_ne _ hk⟩

/-- With every bounded draw 0 the shuffle from index `n` rotates bytes 0 to `n` down by one place (rule R103's
example). -/
theorem byteAt_shuffle_of_draws_zero {P : Prng} (h0 : ∀ g j, (P.draw g j).1.val = 0) {n : Nat} (hn : n < 256)
    (g : PrngState) (B : Buffer) {k : Nat} (hk : k < 256) :
    byteAt (shuffle P n g B).2 k = byteAt B (if k < n then k + 1 else if k = n then 0 else k) := by
  induction n generalizing g B with
  | zero => by_cases hk0 : k = 0 <;> simp [shuffle, hk0]
  | succ n ih =>
    rw [shuffle, ih (by omega), h0]
    rcases lt_trichotomy k n with hlt | rfl | hgt
    · rw [if_pos hlt, if_pos (by omega), byteAt_swapBytes_of_ne _ (by omega) (by omega) (by omega)]
    · rw [if_neg (by omega), if_pos rfl, if_pos (by omega), byteAt_swapBytes_right _ _ (by omega)]
    · rw [if_neg (by omega), if_neg (by omega), if_neg (by omega)]
      split_ifs with hk1
      · rw [hk1, byteAt_swapBytes_left _ _ hn]
      · exact byteAt_swapBytes_of_ne _ hk hk1 (by omega)

/-! ## LIMIT -/

/-- Shifting the high half over the low one joins them (rule R105). -/
theorem shift_or_eq_joinHalves (hi lo : Word) :
    BitVec.zeroExtend 64 hi <<< 32 ||| BitVec.zeroExtend 64 lo = joinHalves hi lo := by
  refine BitVec.eq_of_getLsbD_eq fun k hk => ?_
  rw [joinHalves, BitVec.getLsbD_append]
  by_cases h : k < 32
  · simp [h, hk]
  · simp [h, hk, BitVec.getLsbD_of_ge lo k (by omega)]

theorem joinHalves_toNat (hi lo : Word) : (joinHalves hi lo).toNat = hi.toNat * 2 ^ 32 + lo.toNat := by
  rw [joinHalves, BitVec.toNat_append, ← Nat.shiftLeft_add_eq_or_of_lt lo.isLt, Nat.shiftLeft_eq]

/-! ## GEN -/

theorem genWith_perm (P : Prng) (s : State) : (genWith P s).perm = (shuffle P 255 s.g identityBuffer).2 := rfl

/-- LIMIT joins the two raw draws made after the shuffle, the second one high (rule R105). -/
theorem genWith_limit (P : Prng) (s : State) : (genWith P s).limit =
    joinHalves (P.next32 (P.next32 (shuffle P 255 s.g identityBuffer).1).2).1
      (P.next32 (shuffle P 255 s.g identityBuffer).1).1 :=
  shift_or_eq_joinHalves _ _

/-- Settles O24: the shuffle of the identity is traced draw by draw; with every draw 0 it is a rotation, and LIMIT
joins the two raw draws. -/
theorem genCommand : Obligations.GenCommand := by
  refine ⟨rfl, commandPort .gen, fun s hb hs => ?notSeeded,
    fun s => ⟨_, _, shuffleTrace_identity Config.prng s.g, rfl⟩,
    fun P s g1 g2 g3 h0 hg1 hp1 hp2 => ⟨fun k hk => ?perm, ?limit⟩⟩
  case notSeeded => rw [hostCmd, step_wr_cmd, acceptCommand_gen_notSeeded hb hs]; rfl
  case perm =>
    rw [genWith_perm, byteAt_shuffle_of_draws_zero h0 (by decide) _ _ hk,
      byteAt_identityBuffer (by split_ifs <;> omega)]
    congr 1
    split_ifs <;> omega
  case limit =>
    rw [genWith_limit, hg1, hp1, hp2]
    exact (by decide : joinHalves 0x01234567 0x89abcdef = 0x0123456789abcdef)

/-- Settles O25: LIMIT joins the two raw draws, and joining keeps each half. -/
theorem limitHalvesAreTheDraws : Obligations.LimitHalvesAreTheDraws := by
  intro s
  refine ⟨genWith Config.prng s, _, _, _, _, _, rfl, shuffleTrace_identity Config.prng s.g, rfl, rfl, rfl, ?_⟩
  rw [genWith_limit]
  exact ⟨joinHalves_toNat _ _, lo32_joinHalves _ _, hi32_joinHalves _ _⟩

end Sys2Proof.Machine
end

section
/-! The family 41_sort_engine: LOADC (O29), what a SORT measures (O31), the branches of one of its iterations (O32 to
O35, O37), and that the standard step goes to the lexicographic predecessor (O46). -/

namespace Sys2Proof.Machine

/-! ## LOADC -/

/-- Settles O29: the engine step is `copyPrefix`, read byte by byte, and the port is that of every command. -/
theorem loadcCommand : Obligations.LoadcCommand := by
  refine ⟨rfl, commandPort .loadc, fun s => ⟨copyPrefix s.len.toNat s.perm s.wbuf, rfl, fun k hk hlt => ?_,
    fun k hk hge => ?_⟩⟩
  · rw [byteAt_copyPrefix _ _ _ hk, if_pos hlt]
  · rw [byteAt_copyPrefix _ _ _ hk, if_neg (by omega)]

/-! ## What a SORT measures (rule R131) -/

theorem isSorted_eq_false_iff {B : Buffer} {n : Nat} : isSorted B n = false ↔ ¬ NonDecreasing B n := by
  rw [← isSorted_iff, Bool.not_eq_true]

theorem nonDecreasing_of_lt_two {B : Buffer} {n : Nat} (h : n < 2) : NonDecreasing B n := fun k hk => by omega

/-- A maximal run is no shorter than any other run: the byte before it would break the longer one. -/
theorem TailRunIs.not_lt {B : Buffer} {n l l' : Nat} (h : TailRunIs B n l) (h' : TailRunIs B n l') : ¬ l < l' := by
  intro hlt
  rcases h' with ⟨-, hl'⟩ | ⟨-, hle', hrun', -⟩
  · omega
  rcases h with ⟨hn, -⟩ | ⟨hl, -, -, hmax⟩
  · omega
  rcases hmax with hl | hmax
  · omega
  · have hdesc := hrun' (n - l - 1) (by omega) (by omega)
    rw [show n - l - 1 + 1 = n - l by omega] at hdesc
    exact hmax hdesc

theorem tailRun_eq_iff {B : Buffer} {n l : Nat} : tailRun B n = l ↔ TailRunIs B n l := by
  constructor
  · rintro rfl
    exact tailRun_spec B n
  · intro h
    have h1 := (tailRun_spec B n).not_lt h
    have h2 := h.not_lt (tailRun_spec B n)
    omega

/-- Settles O31: below two bytes nothing is compared, and the maximal run at the end is unique. -/
theorem sortedAndTailRunMeasured : Obligations.SortedAndTailRunMeasured := by
  refine fun B n => ⟨?_, fun l => tailRun_eq_iff⟩
  rw [isSorted_iff, or_iff_right_of_imp nonDecreasing_of_lt_two]

theorem TailRunIs.le {B : Buffer} {n l : Nat} (h : TailRunIs B n l) : l ≤ n := by
  rcases h with ⟨rfl, rfl⟩ | ⟨-, hle, -⟩
  · exact Nat.le_refl 0
  · exact hle

/-- A run of two bytes or more is a descent. -/
theorem TailRunIs.not_nonDecreasing {B : Buffer} {n l : Nat} (h : TailRunIs B n l) (hl : 2 ≤ l) :
    ¬ NonDecreasing B n := by
  intro hnd
  rcases h with ⟨-, rfl⟩ | ⟨-, hle, hrun, -⟩
  · omega
  · have hlt := hrun (n - 2) (by omega) (by omega)
    have hge := hnd (n - 2) (by omega)
    exact BitVec.not_lt.2 hge hlt

/-! ## The charge of a skip (rule R136) -/

theorem stepc_toNat (k : Fin 21) : stepc[k].toNat = k.val.factorial := by
  revert k; decide

theorem skipCharge_toNat {l : Nat} {c : DWord} (h : skipCharge l = some c) : c.toNat = l.factorial - 1 := by
  obtain ⟨hl, rfl⟩ := skipCharge_eq_some.1 h
  have hfac : (stepc[l]'hl.2).toNat = l.factorial := stepc_toNat ⟨l, hl.2⟩
  have hone : (1 : DWord) ≤ stepc[l]'hl.2 := by
    rw [BitVec.le_def, hfac]
    exact l.factorial_pos
  rw [BitVec.toNat_sub_of_le hone, hfac]
  rfl

theorem skipCondition_iff {a : Bool} {l : Nat} {limit : DWord} :
    SkipCondition a l limit ↔ a = true ∧ ∃ c, skipCharge l = some c ∧ c ≤ limit := by
  constructor
  · rintro ⟨ha, h2, h21, hle⟩
    have hc : skipCharge l = some (stepc[l]'h21 - 1) := skipCharge_eq_some.2 ⟨⟨h2, h21⟩, rfl⟩
    exact ⟨ha, _, hc, by rwa [BitVec.le_def, skipCharge_toNat hc]⟩
  · rintro ⟨ha, c, hc, hle⟩
    obtain ⟨⟨h2, h21⟩, -⟩ := skipCharge_eq_some.1 hc
    exact ⟨ha, h2, h21, by rwa [← skipCharge_toNat hc]⟩

/-- A skip charges at least 5, so the condition of rule R136 asks for a budget. -/
theorem SkipCondition.limit_ne_zero {a : Bool} {l : Nat} {limit : DWord} (h : SkipCondition a l limit) :
    limit ≠ 0 := by
  rintro rfl
  obtain ⟨-, h2, -, hle⟩ := h
  have hfac := Nat.self_le_factorial l
  have hzero : (0 : DWord).toNat = 0 := rfl
  omega

/-! ## The branches of an iteration (rule R133), in the terms of the rules -/

section Iteration

variable {a : Bool} {s : State} {l : Nat}

theorem exec_sort_sorted (h : NonDecreasing s.wbuf s.len.toNat) :
    exec (.sort a) s = .next (finish (markSorted s)) := by
  have hs := (isSorted_iff _ _).2 h
  rcases execSort_cases a s with ⟨-, e⟩ | ⟨hn, -⟩ | ⟨hn, -⟩ | ⟨hn, -⟩
  · exact e
  all_goals exact absurd h (isSorted_eq_false_iff.1 hn)

theorem exec_sort_exhausted (h : ¬ NonDecreasing s.wbuf s.len.toNat) (h0 : s.limit = 0) :
    exec (.sort a) s = .next (finish (markExhausted s)) := by
  rcases execSort_cases a s with ⟨hs, -⟩ | ⟨-, -, e⟩ | ⟨-, hne, -⟩ | ⟨-, hne, -⟩
  · exact absurd ((isSorted_iff _ _).1 hs) h
  · exact e
  all_goals exact absurd h0 hne

theorem exec_sort_skip (hrun : TailRunIs s.wbuf s.len.toNat l) (hskip : SkipCondition a l s.limit) :
    ∃ c, skipCharge l = some c ∧ c ≤ s.limit ∧
      exec (.sort a) s = .next { s with wbuf := reverseTail s.wbuf s.len.toNat l, limit := s.limit - c } := by
  obtain ⟨ha, c, hc, hle⟩ := skipCondition_iff.1 hskip
  have hl : 2 < l := hskip.2.1
  obtain rfl := tailRun_eq_iff.2 hrun
  rcases execSort_cases a s with ⟨hs, -⟩ | ⟨-, h0, -⟩ | ⟨-, -, c', -, hc', hle', e⟩ | ⟨-, -, hn, -⟩
  · exact absurd ((isSorted_iff _ _).1 hs) (hrun.not_nonDecreasing (by omega))
  · exact absurd h0 hskip.limit_ne_zero
  · exact ⟨c', hc', hle', e⟩
  · exact absurd hle (hn c ha hc)

theorem exec_sort_standard (h : ¬ NonDecreasing s.wbuf s.len.toNat) (h0 : s.limit ≠ 0)
    (hrun : TailRunIs s.wbuf s.len.toNat l) (hskip : ¬ SkipCondition a l s.limit) :
    exec (.sort a) s = .next { s with wbuf := predecessor s.wbuf s.len.toNat, limit := s.limit - 1 } := by
  obtain rfl := tailRun_eq_iff.2 hrun
  rcases execSort_cases a s with ⟨hs, -⟩ | ⟨-, hz, -⟩ | ⟨-, -, c, ha, hc, hle, -⟩ | ⟨-, -, -, e⟩
  · exact absurd ((isSorted_iff _ _).1 hs) h
  · exact absurd hz h0
  · exact absurd (skipCondition_iff.2 ⟨ha, c, hc, hle⟩) hskip
  · exact e

end Iteration

/-- The charge of a standard step. -/
theorem toNat_sub_one_add_one {limit : DWord} (h : limit ≠ 0) : (limit - 1).toNat + 1 = limit.toNat := by
  bv_omega

/-- Settles O32: the sortedness check comes first. -/
theorem sortStopsWhenSorted : Obligations.SortStopsWhenSorted := fun _ _ h => exec_sort_sorted h

/-- Settles O33: the budget check comes second. -/
theorem sortStopsWhenExhausted : Obligations.SortStopsWhenExhausted := fun _ _ h h0 => exec_sort_exhausted h h0

/-- Settles O34: the iteration is the skip, whose charge is `l! - 1`, and the reversal is read byte by byte. -/
theorem skipReversesTheTail : Obligations.SkipReversesTheTail := by
  intro s l hlen hrun hskip
  obtain ⟨c, hc, hle, e⟩ := exec_sort_skip hrun hskip
  have hl : 2 < l := hskip.2.1
  have hln := hrun.le
  refine ⟨_, _, e, ?charge, fun k hk h1 h2 => ?tail, fun k hk h => ?rest⟩
  case charge =>
    rw [BitVec.toNat_sub_of_le hle, ← skipCharge_toNat hc]
    exact Nat.sub_add_cancel hle
  case tail => rw [reverseTail, byteAt_reverseBytes _ _ _ hk, if_pos (by omega)]
  case rest => rw [reverseTail, byteAt_reverseBytes _ _ _ hk, if_neg (by omega)]

/-- Settles O37: with `a = 0` the skip condition is false. -/
theorem sortNaChargesOne : Obligations.SortNaChargesOne := fun _ h h0 =>
  ⟨_, exec_sort_standard h h0 (tailRun_spec _ _) fun hskip => Bool.noConfusion hskip.1, toNat_sub_one_add_one h0⟩

/-! ## The standard step, byte by byte (rule R137) -/

theorem not_nonDecreasing_of_descent {B : Buffer} {n i : Nat} (hi : i + 1 < n)
    (h : byteAt B (i + 1) < byteAt B i) : ¬ NonDecreasing B n :=
  fun hnd => BitVec.not_lt.2 (hnd i hi) h

section StandardStep

variable {B : Buffer} {n i j : Nat} (hi : descentIndex B n = some i) (hj : smallerIndex B n i = some j)
include hi hj

/-- After the last descent the step leaves the exchanged bytes in reverse. -/
theorem byteAt_predecessor_tail (hn : n ≤ 256) {k : Nat} (h1 : i < k) (h2 : k < n) :
    byteAt (predecessor B n) k = byteAt (swapBytes B i j) (i + 1 + (n - 1) - k) := by
  rw [predecessor_eq hi hj, byteAt_reverseBytes _ _ _ (by omega), if_pos (by omega)]

/-- Up to the last descent, and outside the sequence, the step only exchanges. -/
theorem byteAt_predecessor_rest {k : Nat} (hk : k < 256) (h : k ≤ i ∨ n ≤ k) :
    byteAt (predecessor B n) k = byteAt (swapBytes B i j) k := by
  have := (descentIndex_eq_some.1 hi).1
  rw [predecessor_eq hi hj, byteAt_reverseBytes _ _ _ hk, if_neg (by omega)]

end StandardStep

/-- Settles O35: the two indices are the engine's, and the exchanged buffer is the witness between the moves. -/
theorem standardStepMoves : Obligations.StandardStepMoves := by
  intro a s l i j hlen hrun hskip h0 hin hdesc hlast hij hjn hless hlastj
  have hi : descentIndex s.wbuf s.len.toNat = some i := descentIndex_eq_some.2 ⟨hin, hdesc, hlast⟩
  have hj : smallerIndex s.wbuf s.len.toNat i = some j := smallerIndex_eq_some.2 ⟨hij, hjn, hless, hlastj⟩
  refine ⟨_, _, byteAt (swapBytes s.wbuf i j),
    exec_sort_standard (not_nonDecreasing_of_descent hin hdesc) h0 hrun hskip, toNat_sub_one_add_one h0,
    byteAt_swapBytes_left _ _ (by omega), byteAt_swapBytes_right _ _ (by omega), fun k hki hkj => ?_,
    fun k => byteAt_predecessor_tail hi hj hlen, fun k => byteAt_predecessor_rest hi hj⟩
  rcases Nat.lt_or_ge k 256 with hk | hk
  · exact byteAt_swapBytes_of_ne _ hk hki hkj
  · rw [byteAt_outside _ hk, byteAt_outside _ hk]

/-! ## Arrangements in lexicographic order -/

section Arrangements

variable {ys : List Byte}

/-- An ascending arrangement is the first one. -/
theorem not_lt_of_perm_ascending {xs : List Byte} (hp : ys.Perm xs) (h : xs.Pairwise (· ≤ ·)) : ¬ ys < xs := by
  induction xs generalizing ys with
  | nil => simp [hp.eq_nil]
  | cons x xs ih =>
    cases ys with
    | nil => simp at hp
    | cons y ys =>
      intro hlt
      rcases List.cons_lt_cons_iff.1 hlt with hyx | ⟨rfl, htail⟩
      · rcases List.mem_cons.1 (hp.subset List.mem_cons_self) with rfl | hy
        · exact BitVec.lt_irrefl _ hyx
        · exact BitVec.not_lt.2 (List.rel_of_pairwise_cons h hy) hyx
      · exact ih hp.cons_inv h.of_cons htail

/-- A descending arrangement is the last one. -/
theorem le_of_perm_descending {xs : List Byte} (hp : ys.Perm xs) (h : xs.Pairwise (· ≥ ·)) : ys ≤ xs := by
  induction xs generalizing ys with
  | nil => simp [hp.eq_nil]
  | cons x xs ih =>
    cases ys with
    | nil => simp at hp
    | cons y ys =>
      refine List.cons_le_cons_iff.2 ?_
      by_cases hyx : y = x
      · subst hyx
        exact .inr ⟨rfl, ih hp.cons_inv h.of_cons⟩
      · have hy : y ∈ xs := (List.mem_cons.1 (hp.subset List.mem_cons_self)).resolve_left hyx
        exact .inl (BitVec.lt_of_le_ne (List.rel_of_pairwise_cons h hy) hyx)

variable {p q r : List Byte} {x y : Byte}

/-- The greatest arrangement below `p ++ x :: q`, for `q` ascending: the common part `p`, then a byte `y` that no
byte of `q` below `x` exceeds, then the others descending. -/
theorem le_of_perm_of_lt (hq : q.Pairwise (· ≤ ·)) (hr : r.Pairwise (· ≥ ·)) (hy : ∀ d ∈ q, d < x → d ≤ y)
    (hperm : (p ++ y :: r).Perm (p ++ x :: q)) (hys : ys.Perm (p ++ x :: q)) (hlt : ys < p ++ x :: q) :
    ys ≤ p ++ y :: r := by
  induction p generalizing ys with
  | nil =>
    cases ys with
    | nil => simp at hys
    | cons d ys =>
      refine List.cons_le_cons_iff.2 ?_
      rcases List.cons_lt_cons_iff.1 hlt with hdx | ⟨rfl, htail⟩
      · have hdq : d ∈ q := (List.mem_cons.1 (hys.subset List.mem_cons_self)).resolve_left (BitVec.ne_of_lt hdx)
        by_cases hdy : d = y
        · subst hdy
          exact .inr ⟨rfl, le_of_perm_descending (hys.trans hperm.symm).cons_inv hr⟩
        · exact .inl (BitVec.lt_of_le_ne (hy d hdq hdx) hdy)
      · exact absurd htail (not_lt_of_perm_ascending hys.cons_inv hq)
  | cons c p ih =>
    cases ys with
    | nil => simp at hys
    | cons d ys =>
      refine List.cons_le_cons_iff.2 ?_
      rcases List.cons_lt_cons_iff.1 hlt with hdc | ⟨rfl, htail⟩
      · exact .inl hdc
      · exact .inr ⟨rfl, ih hperm.cons_inv hys.cons_inv htail⟩

end Arrangements

/-! ## The standard step as the lexicographic predecessor (rule R148) -/

/-- An unsorted sequence has a last descent (rule R138). -/
theorem exists_descentIndex {B : Buffer} {n : Nat} (h : ¬ NonDecreasing B n) : ∃ i, descentIndex B n = some i := by
  refine Option.ne_none_iff_exists'.1 fun hnone => h fun k hk => ?_
  simpa using lastIndex_eq_none.1 hnone k (by omega)

/-- The byte after the last descent is a smaller one (rule R138). -/
theorem exists_smallerIndex {B : Buffer} {n i : Nat} (hi : descentIndex B n = some i) :
    ∃ j, smallerIndex B n i = some j := by
  obtain ⟨hin, hdesc, -⟩ := descentIndex_eq_some.1 hi
  refine Option.ne_none_iff_exists'.1 fun hnone => ?_
  simpa [hdesc] using lastIndex_eq_none.1 hnone (i + 1) hin

/-- The sequence around index `i`. -/
theorem prefixOf_split (B : Buffer) {n i : Nat} (hn : n ≤ 256) (hi : i < n) :
    prefixOf B n = (List.range i).map (byteAt B) ++
      byteAt B i :: (List.range (n - (i + 1))).map fun k => byteAt B (i + 1 + k) := by
  have hsum : n = i + 1 + (n - (i + 1)) := by omega
  rw [prefixOf_eq_map B n hn, hsum, List.range_add, List.range_succ]
  simp [Function.comp_def]

theorem pairwise_map_range {R : Byte → Byte → Prop} {f : Nat → Byte} {m : Nat}
    (h : ∀ k l, k < l → l < m → R (f k) (f l)) : ((List.range m).map f).Pairwise R :=
  List.pairwise_map.2 (List.pairwise_lt_range.imp_of_mem fun _ hl hkl => h _ _ hkl (List.mem_range.1 hl))

section Predecessor

variable {B : Buffer} {n i j : Nat} (hi : descentIndex B n = some i)
include hi

/-- After the last descent the bytes ascend. -/
theorem byteAt_le_after_descent {k l : Nat} (hik : i < k) (hkl : k ≤ l) (hl : l < n) : byteAt B k ≤ byteAt B l := by
  obtain ⟨-, -, hlast⟩ := descentIndex_eq_some.1 hi
  induction l, hkl using Nat.le_induction with
  | base => exact BitVec.le_refl _
  | succ l hkl ih => exact BitVec.le_trans (ih (by omega)) (BitVec.not_lt.1 (hlast l (by omega) hl))

variable (hj : smallerIndex B n i = some j)
include hj

/-- They still ascend when byte `i` has taken the place of the last byte smaller than it. -/
theorem byteAt_swapBytes_le_after_descent (hn : n ≤ 256) {k l : Nat} (hik : i < k) (hkl : k < l) (hl : l < n) :
    byteAt (swapBytes B i j) k ≤ byteAt (swapBytes B i j) l := by
  obtain ⟨hij, hjn, hless, hlastj⟩ := smallerIndex_eq_some.1 hj
  have hasc := byteAt_le_after_descent hi hik hkl.le hl
  rcases eq_or_ne k j with rfl | hkj
  · rw [byteAt_swapBytes_right _ _ (by omega), byteAt_swapBytes_of_ne _ (by omega) (by omega) (by omega)]
    exact BitVec.not_lt.1 (hlastj l hkl hl)
  rw [byteAt_swapBytes_of_ne _ (by omega) (by omega) hkj]
  rcases eq_or_ne l j with rfl | hlj
  · rw [byteAt_swapBytes_right _ _ (by omega)]
    exact BitVec.le_trans hasc (BitVec.le_of_lt hless)
  · rwa [byteAt_swapBytes_of_ne _ (by omega) (by omega) hlj]

/-- No byte after `i` that is smaller than byte `i` exceeds byte `j`. -/
theorem le_byteAt_smallerIndex {k : Nat} (hik : i < k) (hkn : k < n) (hk : byteAt B k < byteAt B i) :
    byteAt B k ≤ byteAt B j := by
  obtain ⟨-, hjn, -, hlastj⟩ := smallerIndex_eq_some.1 hj
  exact byteAt_le_after_descent hi hik (Nat.le_of_not_lt fun hjk => hlastj k hjk hkn hk) hjn

theorem predecessor_prefix_perm (hn : n ≤ 256) : (prefixOf (predecessor B n) n).Perm (prefixOf B n) := by
  obtain ⟨hij, hjn, -, -⟩ := smallerIndex_eq_some.1 hj
  rw [predecessor_eq hi hj]
  exact (reverseBytes_prefix_perm _ _ _ _ hn (by omega)).trans (swapBytes_prefix_perm _ _ _ _ hn (by omega) hjn)

/-- The sequence after the step: the bytes before `i` as they were, byte `j`, then the others descending. -/
theorem prefixOf_predecessor (hn : n ≤ 256) : ∃ r : List Byte, r.Pairwise (· ≥ ·) ∧
    prefixOf (predecessor B n) n = (List.range i).map (byteAt B) ++ byteAt B j :: r := by
  obtain ⟨hij, hjn, -, -⟩ := smallerIndex_eq_some.1 hj
  refine ⟨(List.range (n - (i + 1))).map fun k => byteAt (predecessor B n) (i + 1 + k),
    pairwise_map_range fun k l hkl hl => ?_, ?_⟩
  · rw [byteAt_predecessor_tail hi hj hn (by omega) (by omega),
      byteAt_predecessor_tail hi hj hn (by omega) (by omega)]
    exact byteAt_swapBytes_le_after_descent hi hj hn (by omega) (by omega) (by omega)
  · have hhead : (List.range i).map (byteAt (predecessor B n)) = (List.range i).map (byteAt B) := by
      refine List.map_congr_left fun k hk => ?_
      have hki := List.mem_range.1 hk
      rw [byteAt_predecessor_rest hi hj (by omega) (.inl hki.le),
        byteAt_swapBytes_of_ne _ (by omega) (by omega) (by omega)]
    rw [prefixOf_split _ hn (by omega : i < n), hhead, byteAt_predecessor_rest hi hj (by omega) (.inl le_rfl),
      byteAt_swapBytes_left _ _ (by omega)]

/-- The step goes down, and no arrangement lies between. -/
theorem predecessor_spec (hn : n ≤ 256) : prefixOf (predecessor B n) n < prefixOf B n ∧
    ∀ ys : List Byte, ys.Perm (prefixOf B n) → ys < prefixOf B n → ys ≤ prefixOf (predecessor B n) n := by
  have hperm := predecessor_prefix_perm hi hj hn
  obtain ⟨r, hr, hpred⟩ := prefixOf_predecessor hi hj hn
  obtain ⟨hin, -, -⟩ := descentIndex_eq_some.1 hi
  obtain ⟨-, -, hless, -⟩ := smallerIndex_eq_some.1 hj
  rw [hpred, prefixOf_split B hn (by omega : i < n)] at hperm ⊢
  refine ⟨List.append_left_lt (List.cons_lt_cons_iff.2 (.inl hless)), fun ys hys hlt =>
    le_of_perm_of_lt (pairwise_map_range fun k l hkl hl => ?_) hr (fun d hd hdi => ?_) hperm hys hlt⟩
  · exact byteAt_le_after_descent hi (by omega) (by omega) (by omega)
  · obtain ⟨k, hk, rfl⟩ := List.mem_map.1 hd
    rw [List.mem_range] at hk
    exact le_byteAt_smallerIndex hi hj (by omega) (by omega) hdi

end Predecessor

/-- Settles O46: the iteration is the standard step, both of its indices exist, and it leaves the greatest of the
smaller arrangements. -/
theorem standardStepIsPredecessor : Obligations.StandardStepIsPredecessor := by
  intro a s l hlen hns h0 hrun hskip
  obtain ⟨i, hi⟩ := exists_descentIndex hns
  obtain ⟨j, hj⟩ := exists_smallerIndex hi
  exact ⟨_, exec_sort_standard hns h0 hrun hskip, predecessor_prefix_perm hi hj hlen, predecessor_spec hi hj hlen⟩

end Sys2Proof.Machine
end

section
/-! The family 42_keystream_host: the lengths KEYSTREAM takes (O58). -/

namespace Sys2Proof.Machine

/-- KEYSTREAM has no program exactly for the lengths it must not be called with (rule R171). -/
theorem keystreamProgram_eq_none_iff {seed : DWord} {n : Nat} : keystreamProgram seed n = none ↔ 256 < n := by
  simp [keystreamProgram, lengthOk]

/-- A host that writes a length above 256 to LEN gets BAD_VALUE (rule R23). -/
theorem step_hostWriteLen_badValue {s : State} {n : Nat} (hb : s.busy = false) (hn : 256 < n) (hw : n < 2 ^ 32) :
    step (s.hostNext (hostWriteLen n)) = .next (raiseError .badValue s) := by
  have hv : (BitVec.ofNat 32 n).toNat = n := Nat.mod_eq_of_lt hw
  exact step_wr_badLen (by decide) hb (hv.symm ▸ hn)

/-- Settles O58: a program is there unless the length is above 256, and such a length fails LEN's value check. -/
theorem keystreamLengthBound : Obligations.KeystreamLengthBound := by
  refine fun seed n => ⟨fun hn => ?_, fun hn => ⟨?_, fun s hb hw => ?_⟩⟩
  · exact Option.ne_none_iff_exists'.1 fun hnone => hn.not_gt (keystreamProgram_eq_none_iff.1 hnone)
  · exact keystreamProgram_eq_none_iff.2 hn
  · exact step_hostWriteLen_badValue hb hn hw

end Sys2Proof.Machine
end

section
/-! The family 43_control: CLRERR (O22) and NOP (O21). -/

namespace Sys2Proof.Machine

theorem exec_nop (s : State) : exec .nop s = .next (finish s) := rfl

theorem exec_clrerr (s : State) : exec .clrerr s = .next (finish { s with err := 0 }) := rfl

/-- Settles O22: the engine step is `finish` after ERR is cleared, and a `RUN` of it from any idle block is an
acceptance, that engine step and a POLL, which leaves ERR. -/
theorem clrerrCommand : Obligations.ClrerrCommand := by
  refine ⟨rfl, commandPort .clrerr, exec_clrerr, fun s hq hb _ => ?_⟩
  have hrun := run_hostRun (i := .clrerr) (t := finish { latchCommand .clrerr s with err := 0 }) (p := []) hq hb
    (by simp) (exec_clrerr _) rfl rfl 0
  exact ⟨_, hrun, rfl, rfl⟩

/-- Settles O21: the engine step is `finish`, so a `RUN` of it from reset leaves the STATUS of reset. -/
theorem nopCommand : Obligations.NopCommand := by
  refine ⟨rfl, commandPort .nop, exec_nop, ?_⟩
  have hrun := run_hostRun (i := .nop) (s := State.reset) (t := finish (latchCommand .nop State.reset)) (p := [])
    rfl rfl (by simp) (exec_nop _) rfl rfl 0
  exact ⟨_, hrun, rfl, by decide⟩

end Sys2Proof.Machine
end

section
/-! The family 60_exceptions: the checks of a command write (O8) and of a data write (O10), in their order. -/

namespace Sys2Proof.Machine

/-! ## Command writes -/

/-- What latching a command stores, for every command at once (rule R202). -/
theorem latchCommand_eq (i : Instr) (s : State) : latchCommand i s = { s with
    busy := true
    seq := .run i
    sorted := if ∃ a, i = .sort a then false else s.sorted
    exhausted := if ∃ a, i = .sort a then false else s.exhausted } := by
  by_cases h : ∃ a, i = .sort a
  · rw [if_pos h, if_pos h]
    obtain ⟨a, rfl⟩ := h
    exact latchCommand_sort a s
  · rw [if_neg h, if_neg h]
    exact latchCommand_of_ne_sort (not_exists.1 h) s

/-- Settles O8: a write of CMD is command acceptance, and each outcome of acceptance is the lemma of its check; a
word that decodes is the word of its command. -/
theorem commandAcceptance : Obligations.CommandAcceptance := by
  intro s v
  have hcmd : step (s.hostNext (.wr 0 v)) = .next (acceptCommand v s) := step_wr_cmd s v
  rw [hcmd]
  refine ⟨fun hb => ?busy, fun hb hill => ?illegal, fun hb hd hs => ?notSeeded, fun i hb hd hs => ?accepted⟩
  case busy => rw [acceptCommand_busy hb]; rfl
  case illegal =>
    cases hd : decode v with
    | error e => rw [acceptCommand_illegal hb hd]; rfl
    | ok i => exact absurd hd (hill i)
  case notSeeded =>
    obtain rfl := decode_eq_ok_iff_encode.1 hd
    rw [acceptCommand_gen_notSeeded hb hs]; rfl
  case accepted =>
    obtain rfl := decode_eq_ok_iff_encode.1 hd
    rw [acceptCommand_encode hb hs, latchCommand_eq]

/-! ## Data writes -/

theorem dataWrite_badAddr {r : Region} (hw : r.writable = false) (v : Word) (s : State) :
    dataWrite r v s = raiseError .badAddr s :=
  if_pos (by simp [hw])

theorem dataWrite_writeBusy {r : Region} {s : State} (hw : r.writable = true) (hb : s.busy = true) (v : Word) :
    dataWrite r v s = raiseError .writeBusy s := by
  rw [dataWrite, if_neg (by simp [hw]), if_pos hb]

@[simp] theorem performWrite_err (r : Region) (v : Word) (s : State) : (performWrite r v s).err = s.err := by
  cases r <;> rfl

/-- A host write of any word but CMD is a data write (rule R204). -/
theorem step_wr_data {a : WordAddr} (h : offsetOf a ≠ 0) (v : Word) (s : State) :
    step (s.hostNext (.wr a v)) = .next (dataWrite (regionOf a) v s) := by
  rw [step_hostNext_wr, memWrite_of_ne_cmd h]

/-- The host may write SEED, LEN, LIMIT and the WBUF window (rule R51). -/
theorem regionOf_writable {a : WordAddr}
    (h : (0x008 ≤ offsetOf a ∧ offsetOf a ≤ 0x018) ∨ (0x200 ≤ offsetOf a ∧ offsetOf a ≤ 0x2FC)) :
    (regionOf a).writable = true := by
  rw [← Bool.not_eq_false, regionOf_not_writable]
  omega

/-- Settles O10: the offset says whether the word is writable, LEN or CMD, and then each outcome is the lemma of its
check. -/
theorem dataWriteChecks : Obligations.DataWriteChecks := by
  intro s a v
  refine ⟨fun ha => ?badAddr, fun ha hb => ?writeBusy, fun ha hb => ?cmdBusy, fun ha hb hv => ?badValue,
    fun ha hb hv => ⟨?performed, performWrite_err _ v s⟩⟩
  case badAddr =>
    rw [step_wr_data (by omega), dataWrite_badAddr (regionOf_not_writable.2 ha)]; rfl
  case writeBusy =>
    rw [step_wr_data (by omega), dataWrite_writeBusy (regionOf_writable ha) hb]; rfl
  case cmdBusy =>
    rw [step_hostNext_wr, memWrite, if_pos (regionOf_eq_cmd.2 ha), acceptCommand_busy hb]; rfl
  case badValue => exact step_wr_badLen (regionOf_eq_len.2 ha) hb hv
  case performed =>
    have hcmd : regionOf a ≠ .cmd := fun hr => by
      have h0 := regionOf_eq_cmd.1 hr
      omega
    exact step_wr_performs rfl hcmd (regionOf_writable ha) hb fun hr => hv (regionOf_eq_len.1 hr)

end Sys2Proof.Machine
end

section
/-! The family 70_reset_and_hazards: the state after reset (O55). -/

namespace Sys2Proof.Machine

/-! ## The state after reset (rules R241 and R242) -/

theorem reset_seq : State.reset.seq = .idle := rfl

/-- Every flag and the error code are 0 after reset, so STATUS is. -/
theorem statusWord_reset : statusWord State.reset = 0x00000000 := by decide

/-- An engine move of an idle engine changes nothing (rule R242, for every idle state). -/
theorem step_engineNext_idle {s : State} (h : s.seq = .idle) : step s.engineNext = .next s := by
  rw [step_engineNext, engineStep_idle h]

/-- Settles O55: the fields are those reset sets, and the engine does nothing because it is idle. -/
theorem resetValues : Obligations.ResetValues := by
  refine ⟨reset_seq, ?busy, ?seed, ?len, ?limit, statusWord_reset, step_engineNext_idle reset_seq⟩
  case busy | seed | len | limit => rfl

end Sys2Proof.Machine
end

section
/-! Encoding: decoding and encoding agree in both directions (O3), and the seven command words (O1). -/

namespace Sys2Proof

/-- Settles O3: a word decodes to the command that has its fields, and those fields are the whole word. -/
theorem decodeEncodeAgree : Obligations.DecodeEncodeAgree := fun _ _ => decode_eq_ok_iff_encode

/-- Settles O1: each word is the word of its command. -/
theorem commandWordsDecode : Obligations.CommandWordsDecode :=
  ⟨Machine.decode_encode .nop, Machine.decode_encode .seed, Machine.decode_encode .gen, Machine.decode_encode .loadc,
    Machine.decode_encode (.sort false), Machine.decode_encode (.sort true), Machine.decode_encode .clrerr⟩

end Sys2Proof
end

section
/-! The rank of a sequence among its arrangements (rule R144), how the standard step and the skip change it, and so
a skip as a number of standard steps (rule R142). -/

namespace Sys2Proof.Machine

/-! ## Rank -/

/-- The arrangements of the bytes of `xs` that come before `xs`; `rank xs` is how many there are. -/
def arrangementsBelow (xs : List Byte) : Finset (List Byte) := xs.permutations.toFinset.filter (· < xs)

theorem mem_arrangementsBelow {xs ys : List Byte} : ys ∈ arrangementsBelow xs ↔ ys.Perm xs ∧ ys < xs := by
  simp [arrangementsBelow]

theorem rank_eq_card (xs : List Byte) : rank xs = (arrangementsBelow xs).card := by
  rw [rank, arrangementsBelow, ← List.toFinset_card_of_nodup (xs.permutations.nodup_dedup.filter _)]
  congr 1
  ext ys
  simp

theorem rank_le_factorial (xs : List Byte) : rank xs ≤ xs.length.factorial := by
  rw [← List.length_permutations]
  exact (List.length_filter_le _ _).trans (List.dedup_sublist _).length_le

section Order

variable {xs ys : List Byte}

theorem rank_lt_rank (hp : ys.Perm xs) (hlt : ys < xs) : rank ys < rank xs := by
  rw [rank_eq_card, rank_eq_card]
  refine Finset.card_lt_card ((Finset.ssubset_iff_of_subset fun zs hz => ?_).2 ⟨ys, ?_, ?_⟩)
  · obtain ⟨hz, hzy⟩ := mem_arrangementsBelow.1 hz
    exact mem_arrangementsBelow.2 ⟨hz.trans hp, List.lt_trans hzy hlt⟩
  · exact mem_arrangementsBelow.2 ⟨hp, hlt⟩
  · exact fun h => List.lt_irrefl _ (mem_arrangementsBelow.1 h).2

/-- An arrangement is determined by its rank. -/
theorem eq_of_rank_eq (hp : ys.Perm xs) (h : rank ys = rank xs) : ys = xs := by
  refine List.le_antisymm (List.not_lt.1 fun hlt => ?_) (List.not_lt.1 fun hlt => ?_)
  · exact (rank_lt_rank hp.symm hlt).ne h.symm
  · exact (rank_lt_rank hp hlt).ne h

/-- The greatest of the smaller arrangements has the rank before. -/
theorem rank_eq_succ (hp : ys.Perm xs) (hlt : ys < xs) (hmax : ∀ zs : List Byte, zs.Perm xs → zs < xs → zs ≤ ys) :
    rank xs = rank ys + 1 := by
  have hinsert : arrangementsBelow xs = insert ys (arrangementsBelow ys) := by
    ext zs
    rw [Finset.mem_insert, mem_arrangementsBelow, mem_arrangementsBelow]
    constructor
    · rintro ⟨hz, hzx⟩
      exact (List.le_iff_lt_or_eq.1 (hmax zs hz hzx)).symm.imp_right fun h => ⟨hz.trans hp.symm, h⟩
    · rintro (rfl | ⟨hz, hzy⟩)
      · exact ⟨hp, hlt⟩
      · exact ⟨hz.trans hp, List.lt_trans hzy hlt⟩
  rw [rank_eq_card, rank_eq_card, hinsert, Finset.card_insert_of_notMem]
  exact fun h => List.lt_irrefl _ (mem_arrangementsBelow.1 h).2

end Order

/-! ## Reversing a descending tail -/

section Tail

variable {p t : List Byte}

/-- What lies between two sequences with the same first part has that first part too. -/
theorem exists_append_of_between {q r ys : List Byte} (hge : ¬ ys < p ++ q) (hlt : ys < p ++ r) :
    ∃ u, ys = p ++ u := by
  induction p generalizing ys with
  | nil => exact ⟨ys, rfl⟩
  | cons c p ih =>
    cases ys with
    | nil => exact absurd (List.nil_lt_cons c _) hge
    | cons d ys =>
      rw [List.cons_append, List.cons_lt_cons_iff] at hge hlt
      obtain ⟨rfl, htail⟩ := hlt.resolve_left fun h => hge (.inl h)
      obtain ⟨u, rfl⟩ := ih (fun h => hge (.inr ⟨rfl, h⟩)) htail
      exact ⟨u, rfl⟩

theorem lt_of_append_lt_append {q r : List Byte} (h : p ++ q < p ++ r) : q < r := by
  induction p with
  | nil => exact h
  | cons c p ih => exact ih ((List.cons_lt_cons_iff.1 h).resolve_left (BitVec.lt_irrefl c)).2

variable (ht : t.Pairwise (· > ·))
include ht

theorem not_lt_reverse_of_perm {u : List Byte} (hu : u.Perm t) : ¬ u < t.reverse :=
  not_lt_of_perm_ascending (hu.trans t.reverse_perm.symm)
    (List.pairwise_reverse.2 (ht.imp fun h => BitVec.le_of_lt h))

/-- Below a strictly descending tail lie the arrangements below its reverse and the other arrangements of the
tail. -/
theorem arrangementsBelow_append : arrangementsBelow (p ++ t) =
    arrangementsBelow (p ++ t.reverse) ∪ (t.permutations.toFinset.erase t).image (p ++ ·) := by
  ext ys
  simp only [Finset.mem_union, Finset.mem_image, Finset.mem_erase, List.mem_toFinset, List.mem_permutations,
    mem_arrangementsBelow]
  have hrev : (p ++ t.reverse).Perm (p ++ t) := t.reverse_perm.append_left p
  have hdesc : t.Pairwise (· ≥ ·) := ht.imp fun h => BitVec.le_of_lt h
  constructor
  · rintro ⟨hp, hlt⟩
    by_cases hbelow : ys < p ++ t.reverse
    · exact .inl ⟨hp.trans hrev.symm, hbelow⟩
    · obtain ⟨u, rfl⟩ := exists_append_of_between hbelow hlt
      refine .inr ⟨u, ⟨?_, (List.perm_append_left_iff p).1 hp⟩, rfl⟩
      rintro rfl
      exact List.lt_irrefl _ hlt
  · rintro (⟨hp, hlt⟩ | ⟨u, ⟨hne, hu⟩, rfl⟩)
    · rcases List.le_iff_lt_or_eq.1 (le_of_perm_descending t.reverse_perm hdesc) with hrlt | hreq
      · exact ⟨hp.trans hrev, List.lt_trans hlt (List.append_left_lt hrlt)⟩
      · exact ⟨hp.trans hrev, hreq ▸ hlt⟩
    · have hut := (List.le_iff_lt_or_eq.1 (le_of_perm_descending hu hdesc)).resolve_right hne
      exact ⟨hu.append_left p, List.append_left_lt hut⟩

/-- Reversing a strictly descending tail of length `l` lowers the rank by `l! - 1` (rule R142). -/
theorem rank_append_reverse : rank (p ++ t.reverse) + (t.length.factorial - 1) = rank (p ++ t) := by
  have hdisj : Disjoint (arrangementsBelow (p ++ t.reverse))
      ((t.permutations.toFinset.erase t).image (p ++ ·)) := by
    refine Finset.disjoint_right.2 fun ys hys hbelow => ?_
    obtain ⟨u, hu, rfl⟩ := Finset.mem_image.1 hys
    have hperm : u.Perm t := by simpa using (Finset.mem_erase.1 hu).2
    exact not_lt_reverse_of_perm ht hperm (lt_of_append_lt_append (mem_arrangementsBelow.1 hbelow).2)
  have hnodup : t.permutations.Nodup := List.nodup_permutations t (ht.imp fun h => (BitVec.ne_of_lt h).symm)
  rw [rank_eq_card, rank_eq_card, arrangementsBelow_append ht, Finset.card_union_of_disjoint hdisj,
    Finset.card_image_of_injective _ (List.append_right_injective p), Finset.card_erase_of_mem (by simp),
    List.toFinset_card_of_nodup hnodup, List.length_permutations]

end Tail

/-! ## The standard step and the rank -/

/-- A relation between neighbours that composes holds between all places. -/
theorem pairwise_map_range_of_succ {R : Byte → Byte → Prop} (trans : ∀ x y z, R x y → R y z → R x z)
    {f : Nat → Byte} {m : Nat} (h : ∀ k, k + 1 < m → R (f k) (f (k + 1))) : ((List.range m).map f).Pairwise R := by
  refine pairwise_map_range fun k l hkl hl => ?_
  induction l, hkl using Nat.le_induction with
  | base => exact h k hl
  | succ l _ ih => exact trans _ _ _ (ih (by omega)) (h l hl)

section Predecessors

variable {B C : Buffer} {n : Nat}

theorem descentIndex_eq_none (h : NonDecreasing B n) : descentIndex B n = none := by
  refine Option.eq_none_iff_forall_ne_some.2 fun i hi => ?_
  obtain ⟨hin, hdesc, -⟩ := descentIndex_eq_some.1 hi
  exact not_nonDecreasing_of_descent hin hdesc h

/-- On a sorted sequence, which the engine never steps, the standard step does nothing. -/
theorem predecessor_sorted (h : NonDecreasing B n) : predecessor B n = B := by
  simp [predecessor, descentIndex_eq_none h]

theorem predecessor_perm (hn : n ≤ 256) : (prefixOf (predecessor B n) n).Perm (prefixOf B n) := by
  by_cases h : NonDecreasing B n
  · rw [predecessor_sorted h]
  · obtain ⟨i, hi⟩ := exists_descentIndex h
    obtain ⟨j, hj⟩ := exists_smallerIndex hi
    exact predecessor_prefix_perm hi hj hn

theorem byteAt_predecessor_outside {k : Nat} (hk : k < 256) (hnk : n ≤ k) :
    byteAt (predecessor B n) k = byteAt B k := by
  by_cases h : NonDecreasing B n
  · rw [predecessor_sorted h]
  · obtain ⟨i, hi⟩ := exists_descentIndex h
    obtain ⟨j, hj⟩ := exists_smallerIndex hi
    obtain ⟨hij, hjn, -⟩ := smallerIndex_eq_some.1 hj
    rw [byteAt_predecessor_rest hi hj hk (.inr hnk), byteAt_swapBytes_of_ne _ hk (by omega) (by omega)]

theorem rank_predecessor (hn : n ≤ 256) (h : ¬ NonDecreasing B n) :
    rank (prefixOf (predecessor B n) n) + 1 = rank (prefixOf B n) := by
  obtain ⟨i, hi⟩ := exists_descentIndex h
  obtain ⟨j, hj⟩ := exists_smallerIndex hi
  obtain ⟨hlt, hmax⟩ := predecessor_spec hi hj hn
  exact (rank_eq_succ (predecessor_perm hn) hlt hmax).symm

/-- The sorted arrangement is the one of rank 0. -/
theorem rank_eq_zero_iff (hn : n ≤ 256) : rank (prefixOf B n) = 0 ↔ NonDecreasing B n := by
  constructor
  · intro h0
    by_contra h
    have := rank_predecessor hn h
    omega
  · intro h
    have hasc : (prefixOf B n).Pairwise (· ≤ ·) := by
      rw [prefixOf_eq_map B n hn]
      exact pairwise_map_range_of_succ (R := (· ≤ ·)) (fun _ _ _ => BitVec.le_trans) h
    rw [rank_eq_card, Finset.card_eq_zero]
    refine Finset.eq_empty_of_forall_notMem fun ys hys => ?_
    obtain ⟨hp, hlt⟩ := mem_arrangementsBelow.1 hys
    exact not_lt_of_perm_ascending hp hasc hlt

/-- `k` standard steps. -/
def predecessors (n k : Nat) (B : Buffer) : Buffer := (fun C => predecessor C n)^[k] B

@[simp] theorem predecessors_zero : predecessors n 0 B = B := rfl

theorem predecessors_one : predecessors n 1 B = predecessor B n := rfl

theorem predecessors_succ (k : Nat) : predecessors n (k + 1) B = predecessor (predecessors n k B) n :=
  Function.iterate_succ_apply' _ k B

theorem predecessors_add (j k : Nat) : predecessors n j (predecessors n k B) = predecessors n (j + k) B :=
  (Function.iterate_add_apply _ j k B).symm

theorem predecessors_perm (hn : n ≤ 256) (k : Nat) : (prefixOf (predecessors n k B) n).Perm (prefixOf B n) := by
  induction k with
  | zero => exact .refl _
  | succ k ih => exact predecessors_succ k ▸ (predecessor_perm hn).trans ih

theorem byteAt_predecessors_outside (k : Nat) {j : Nat} (hj : j < 256) (hnj : n ≤ j) :
    byteAt (predecessors n k B) j = byteAt B j := by
  induction k with
  | zero => rfl
  | succ k ih => rw [predecessors_succ, byteAt_predecessor_outside hj hnj, ih]

/-- Each standard step lowers the rank by one, down to 0. -/
theorem rank_predecessors (hn : n ≤ 256) {k : Nat} (hk : k ≤ rank (prefixOf B n)) :
    rank (prefixOf (predecessors n k B) n) + k = rank (prefixOf B n) := by
  induction k with
  | zero => rfl
  | succ k ih =>
    have hrank := ih (by omega)
    have hns : ¬ NonDecreasing (predecessors n k B) n := by
      rw [← rank_eq_zero_iff hn]; omega
    have := rank_predecessor hn hns
    rw [predecessors_succ]
    omega

theorem byteAt_eq_of_prefixOf_eq (hn : n ≤ 256) (h : prefixOf B n = prefixOf C n) {k : Nat} (hk : k < n) :
    byteAt B k = byteAt C k := by
  rw [prefixOf_eq_map B n hn, prefixOf_eq_map C n hn] at h
  exact List.map_inj_left.1 h k (List.mem_range.2 hk)

/-- A buffer whose sequence is the arrangement `k` ranks down, the other bytes as they were, is the buffer after `k`
standard steps. -/
theorem eq_predecessors {k : Nat} (hn : n ≤ 256) (hp : (prefixOf C n).Perm (prefixOf B n))
    (hrank : rank (prefixOf C n) + k = rank (prefixOf B n))
    (hout : ∀ j, j < 256 → n ≤ j → byteAt C j = byteAt B j) : C = predecessors n k B := by
  have hseq : prefixOf C n = prefixOf (predecessors n k B) n := by
    refine eq_of_rank_eq (hp.trans (predecessors_perm hn k).symm) ?_
    have := rank_predecessors (B := B) hn (k := k) (by omega)
    omega
  refine buffer_ext fun j hj => ?_
  rcases Nat.lt_or_ge j n with hjn | hnj
  · exact byteAt_eq_of_prefixOf_eq hn hseq hjn
  · rw [hout j hj hnj, byteAt_predecessors_outside k hj hnj]

end Predecessors

/-! ## The skip as standard steps (rule R142) -/

section Skip

variable {B : Buffer} {n l : Nat}

/-- The sequence before and after the reversal of its tail run: the same bytes before the run, which is strictly
descending. -/
theorem prefixOf_reverseTail (hn : n ≤ 256) (hrun : TailRunIs B n l) : ∃ p t : List Byte, t.length = l ∧
    t.Pairwise (· > ·) ∧ prefixOf B n = p ++ t ∧ prefixOf (reverseTail B n l) n = p ++ t.reverse := by
  have hln := hrun.le
  have hsum : n = (n - l) + l := by omega
  refine ⟨(List.range (n - l)).map (byteAt B), (List.range l).map fun k => byteAt B (n - l + k), by simp,
    pairwise_map_range_of_succ (R := (· > ·)) (fun _ _ _ h h' => BitVec.lt_trans h' h) fun k hk => ?_,
    ?_, ?_⟩
  · rcases hrun with ⟨-, rfl⟩ | ⟨-, -, hdesc, -⟩
    · omega
    · exact hdesc (n - l + k) (by omega) (by omega)
  · conv_lhs => rw [prefixOf_eq_map B n hn, hsum, List.range_add]
    simp [Function.comp_def]
  · conv_lhs => rw [prefixOf_eq_map _ n hn, hsum, List.range_add]
    rw [List.map_append, List.map_map]
    congr 1
    · refine List.map_congr_left fun k hk => ?_
      have := List.mem_range.1 hk
      rw [← hsum, reverseTail, byteAt_reverseBytes _ _ _ (by omega), if_neg (by omega)]
    · refine List.ext_getElem (by simp) fun k hk _ => ?_
      have hkl : k < l := by simpa using hk
      simp only [List.getElem_reverse, List.getElem_map, List.getElem_range, List.length_map, List.length_range,
        Function.comp_apply]
      rw [reverseTail, byteAt_reverseBytes _ _ _ (by omega), if_pos (by omega)]
      congr 1; omega

theorem rank_reverseTail (hn : n ≤ 256) (hrun : TailRunIs B n l) :
    rank (prefixOf (reverseTail B n l) n) + (l.factorial - 1) = rank (prefixOf B n) := by
  obtain ⟨p, t, rfl, ht, hB, hC⟩ := prefixOf_reverseTail hn hrun
  rw [hB, hC, rank_append_reverse ht]

theorem reverseTail_perm (hn : n ≤ 256) (hrun : TailRunIs B n l) :
    (prefixOf (reverseTail B n l) n).Perm (prefixOf B n) := by
  obtain ⟨p, t, -, -, hB, hC⟩ := prefixOf_reverseTail hn hrun
  rw [hB, hC]
  exact t.reverse_perm.append_left p

/-- The skip's move is `l! - 1` standard steps. -/
theorem reverseTail_eq_predecessors (hn : n ≤ 256) (hrun : TailRunIs B n l) (hl : 1 ≤ l) :
    reverseTail B n l = predecessors n (l.factorial - 1) B := by
  refine eq_predecessors hn (reverseTail_perm hn hrun) (rank_reverseTail hn hrun) fun j hj hnj => ?_
  have hln := hrun.le
  rw [reverseTail, byteAt_reverseBytes _ _ _ hj, if_neg (by omega)]

end Skip

end Sys2Proof.Machine
end

section
/-! A SORT as a function of its sequence and LIMIT: the indices and charges of an iteration (O36, O38), the engine's
run to its end (O42, O43), the step counts (O17), and through the closed form of rule R144 the statements on skips,
acceleration and the result of a SORT (O39, O40, O41, O44, O45). -/

namespace Sys2Proof.Machine

/-! ## One iteration -/

/-- Settles O36: an unsorted sequence has a last descent, and the byte after it is a smaller one. -/
theorem standardStepIndicesExist : Obligations.StandardStepIndicesExist := by
  intro B n h
  obtain ⟨i, hi⟩ := exists_descentIndex (isSorted_eq_false_iff.1 h)
  obtain ⟨j, hj⟩ := exists_smallerIndex hi
  obtain ⟨hij, hjn, -⟩ := smallerIndex_eq_some.1 hj
  exact ⟨i, j, hi, hj, hij, hjn⟩

/-- Settles O38: the lookup has its bound in its condition, and the entries are factorials. -/
theorem stepCountReadInBounds : Obligations.StepCountReadInBounds := by
  refine fun l => ⟨⟨fun ⟨c, hc⟩ => ?_, fun hl => ?_⟩, fun c => skipCharge_toNat⟩
  · exact (skipCharge_eq_some.1 hc).1
  · exact ⟨_, skipCharge_eq_some.2 ⟨hl, rfl⟩⟩

/-- Settles O17: the entries are read one by one. -/
theorem stepCountsAreFactorials : Obligations.StepCountsAreFactorials := stepc_toNat

/-- What an iteration that does not stop does: it makes some standard steps, at least one and no more than are left
to the sorted arrangement, and charges one for each (rules R136, R137, R142). -/
theorem sortIteration_moved {a : Bool} {n : Nat} {B B' : Buffer} {limit limit' : DWord}
    (h : sortIteration a n B limit = .moved B' limit') : ∃ c, 1 ≤ c ∧ limit'.toNat + c = limit.toNat ∧
      (n ≤ 256 → c ≤ rank (prefixOf B n) ∧ B' = predecessors n c B) := by
  rcases sortIteration_cases a n B limit with ⟨-, e⟩ | ⟨-, -, e⟩ | ⟨-, -, c, -, hc, hle, e⟩ | ⟨hs, h0, -, e⟩
  · exact absurd (e.symm.trans h) nofun
  · exact absurd (e.symm.trans h) nofun
  · obtain ⟨rfl, rfl⟩ := Iteration.moved.inj (e.symm.trans h)
    have hl : 2 < tailRun B n := (skipCharge_eq_some.1 hc).1.1
    have hfac := Nat.self_le_factorial (tailRun B n)
    refine ⟨(tailRun B n).factorial - 1, by omega, ?_, fun hn => ⟨?_, ?_⟩⟩
    · rw [← skipCharge_toNat hc, BitVec.toNat_sub_of_le hle]
      exact Nat.sub_add_cancel hle
    · have := rank_reverseTail hn (tailRun_spec B n)
      omega
    · exact reverseTail_eq_predecessors hn (tailRun_spec B n) (by omega)
  · obtain ⟨rfl, rfl⟩ := Iteration.moved.inj (e.symm.trans h)
    refine ⟨1, le_rfl, toNat_sub_one_add_one h0, fun hn => ⟨?_, predecessors_one.symm⟩⟩
    have := rank_predecessor hn (isSorted_eq_false_iff.1 hs)
    omega

/-- An iteration stops SORTED on a sorted sequence only. -/
theorem nonDecreasing_of_stopSorted {a : Bool} {n : Nat} {B : Buffer} {limit : DWord}
    (h : sortIteration a n B limit = .stopSorted) : NonDecreasing B n := by
  rcases sortIteration_cases a n B limit with ⟨hs, -⟩ | ⟨-, -, e⟩ | ⟨-, -, c, -, -, -, e⟩ | ⟨-, -, -, e⟩
  · exact (isSorted_iff B n).1 hs
  all_goals exact absurd (e.symm.trans h) nofun

/-- It stops EXHAUSTED on an unsorted sequence with LIMIT = 0 only. -/
theorem unsorted_of_stopExhausted {a : Bool} {n : Nat} {B : Buffer} {limit : DWord}
    (h : sortIteration a n B limit = .stopExhausted) : ¬ NonDecreasing B n ∧ limit = 0 := by
  rcases sortIteration_cases a n B limit with ⟨-, e⟩ | ⟨hs, h0, -⟩ | ⟨-, -, c, -, -, -, e⟩ | ⟨-, -, -, e⟩
  · exact absurd (e.symm.trans h) nofun
  · exact ⟨isSorted_eq_false_iff.1 hs, h0⟩
  all_goals exact absurd (e.symm.trans h) nofun

/-! ## The whole SORT as a function -/

section SortWithLimit

variable {a : Bool} {n : Nat}

/-- Fuel above LIMIT is never used up (rule R145). -/
theorem sortRun_eq_of_lt {f f' : Nat} {B : Buffer} {limit : DWord} (h : limit.toNat < f) (h' : limit.toNat < f') :
    sortRun a n f B limit = sortRun a n f' B limit := by
  induction f generalizing f' B limit with
  | zero => omega
  | succ f ih =>
    obtain ⟨f', rfl⟩ : ∃ m, f' = m + 1 := ⟨f' - 1, by omega⟩
    rw [sortRun, sortRun]
    cases hi : sortIteration a n B limit with
    | stopSorted | stopExhausted => rfl
    | moved B' limit' =>
      obtain ⟨c, hc, hsum, -⟩ := sortIteration_moved hi
      exact ih (by omega) (by omega)

theorem sortWithLimit_stopSorted {B : Buffer} {limit : DWord} (h : sortIteration a n B limit = .stopSorted) :
    sortWithLimit a n B limit = (B, limit, true) := by
  rw [sortWithLimit, sortRun, h]

theorem sortWithLimit_stopExhausted {B : Buffer} {limit : DWord}
    (h : sortIteration a n B limit = .stopExhausted) : sortWithLimit a n B limit = (B, limit, false) := by
  rw [sortWithLimit, sortRun, h]

theorem sortWithLimit_moved {B B' : Buffer} {limit limit' : DWord}
    (h : sortIteration a n B limit = .moved B' limit') :
    sortWithLimit a n B limit = sortWithLimit a n B' limit' := by
  obtain ⟨c, hc, hsum, -⟩ := sortIteration_moved h
  rw [sortWithLimit, sortRun, h]
  exact sortRun_eq_of_lt (by omega) (by omega)

/-- Induction along the iterations of a SORT: LIMIT goes down in each that does not stop (rule R145). -/
theorem sort_induction {motive : Buffer → DWord → Prop}
    (stopSorted : ∀ B limit, sortIteration a n B limit = .stopSorted → motive B limit)
    (stopExhausted : ∀ B limit, sortIteration a n B limit = .stopExhausted → motive B limit)
    (moved : ∀ B limit B' limit', sortIteration a n B limit = .moved B' limit' → motive B' limit' →
      motive B limit) (B : Buffer) (limit : DWord) : motive B limit := by
  induction hm : limit.toNat using Nat.strong_induction_on generalizing B limit with
  | _ m ih =>
    cases hi : sortIteration a n B limit with
    | stopSorted => exact stopSorted B limit hi
    | stopExhausted => exact stopExhausted B limit hi
    | moved B' limit' =>
      obtain ⟨c, hc, hsum, -⟩ := sortIteration_moved hi
      exact moved B limit B' limit' hi (ih _ (by omega) B' limit' rfl)

/-- The boolean of a SORT says whether it left its sequence sorted; where it did not, LIMIT is used up (rules R134,
R135). -/
theorem sortWithLimit_flag (B : Buffer) (limit : DWord) :
    ((sortWithLimit a n B limit).2.2 = true ↔ NonDecreasing (sortWithLimit a n B limit).1 n) ∧
    ((sortWithLimit a n B limit).2.2 = false → (sortWithLimit a n B limit).2.1 = 0) := by
  induction B, limit using sort_induction (a := a) (n := n) with
  | stopSorted B limit h => simp [sortWithLimit_stopSorted h, nonDecreasing_of_stopSorted h]
  | stopExhausted B limit h =>
    rw [sortWithLimit_stopExhausted h]
    simp [unsorted_of_stopExhausted h]
  | moved B limit B' limit' h ih => rwa [sortWithLimit_moved h]

/-- The closed form of a SORT (rule R144): with `r` the rank of the sequence, `min LIMIT r` standard steps, each
charged 1, and SORTED exactly when LIMIT allows all `r`. -/
theorem sortWithLimit_eq (hn : n ≤ 256) (B : Buffer) (limit : DWord) : sortWithLimit a n B limit =
    (predecessors n (min limit.toNat (rank (prefixOf B n))) B,
      BitVec.ofNat 64 (limit.toNat - rank (prefixOf B n)), decide (rank (prefixOf B n) ≤ limit.toNat)) := by
  induction B, limit using sort_induction (a := a) (n := n) with
  | stopSorted B limit h =>
    have hr := (rank_eq_zero_iff hn).2 (nonDecreasing_of_stopSorted h)
    simp [sortWithLimit_stopSorted h, hr]
  | stopExhausted B limit h =>
    obtain ⟨hns, h0⟩ := unsorted_of_stopExhausted h
    have hr : rank (prefixOf B n) ≠ 0 := fun hz => hns ((rank_eq_zero_iff hn).1 hz)
    rw [sortWithLimit_stopExhausted h]
    simp [h0, hr]
  | moved B limit B' limit' h ih =>
    obtain ⟨c, -, hsum, hmoved⟩ := sortIteration_moved h
    obtain ⟨hcr, rfl⟩ := hmoved hn
    have hr := rank_predecessors hn hcr
    rw [sortWithLimit_moved h, ih, predecessors_add]
    congr 2
    · omega
    · congr 1; omega
    · simp only [decide_eq_decide]; omega

/-- The acceleration changes nothing (rule R143). -/
theorem sortWithLimit_accel (hn : n ≤ 256) (B : Buffer) (limit : DWord) :
    sortWithLimit true n B limit = sortWithLimit false n B limit := by
  rw [sortWithLimit_eq hn, sortWithLimit_eq hn]

/-- What a SORT makes of its sequence depends on the sequence and LIMIT only. -/
theorem prefixOf_sortWithLimit_congr (hn : n ≤ 256) {B C : Buffer} (h : prefixOf B n = prefixOf C n)
    (limit : DWord) :
    prefixOf (sortWithLimit a n B limit).1 n = prefixOf (sortWithLimit a n C limit).1 n := by
  rw [sortWithLimit_eq hn, sortWithLimit_eq hn, h]
  have hB := predecessors_perm (B := B) hn (min limit.toNat (rank (prefixOf C n)))
  have hC := predecessors_perm (B := C) hn (min limit.toNat (rank (prefixOf C n)))
  refine eq_of_rank_eq (hB.trans (h ▸ hC.symm)) ?_
  have hrB := rank_predecessors (B := B) hn (h ▸ Nat.min_le_right limit.toNat (rank (prefixOf C n)))
  have hrC := rank_predecessors (B := C) hn (Nat.min_le_right limit.toNat _)
  rw [h] at hrB
  dsimp only
  omega

end SortWithLimit

/-! ## The engine's run of a SORT -/

/-- The state in which a SORT ends (rules R134, R135). -/
def sortFinal (a : Bool) (s : State) : State :=
  finish { s with
    wbuf := (sortWithLimit a s.len.toNat s.wbuf s.limit).1
    limit := (sortWithLimit a s.len.toNat s.wbuf s.limit).2.1
    sorted := s.sorted || (sortWithLimit a s.len.toNat s.wbuf s.limit).2.2
    exhausted := s.exhausted || !(sortWithLimit a s.len.toNat s.wbuf s.limit).2.2 }

/-- The engine step of a SORT either ends it, or is an iteration that moves and does not change where the SORT ends. -/
theorem exec_sort_final_or_moved (a : Bool) (s : State) :
    (exec (.sort a) s = .next (sortFinal a s) ∧ (sortFinal a s).wbuf = s.wbuf) ∨
    ∃ B limit, sortIteration a s.len.toNat s.wbuf s.limit = .moved B limit ∧
      exec (.sort a) s = .next { s with wbuf := B, limit := limit } ∧
      sortFinal a { s with wbuf := B, limit := limit } = sortFinal a s := by
  cases h : sortIteration a s.len.toNat s.wbuf s.limit with
  | stopSorted =>
    refine .inl ?_
    simp [exec, execSort, h, sortFinal, sortWithLimit_stopSorted h, markSorted]
  | stopExhausted =>
    refine .inl ?_
    simp [exec, execSort, h, sortFinal, sortWithLimit_stopExhausted h, markExhausted]
  | moved B limit =>
    refine .inr ⟨B, limit, rfl, ?_, ?_⟩
    · simp [exec, execSort, h]
    · simp [sortFinal, sortWithLimit_moved h, finish]

theorem engineRun_add {s t : State} {k : Nat} (h : engineRun k s = .next t) (j : Nat) :
    engineRun (k + j) s = engineRun j t := by
  induction k generalizing s with
  | zero =>
    obtain rfl := Host.Outcome.next.inj h
    rw [Nat.zero_add]
  | succ k ih =>
    rw [Nat.succ_add]
    cases hs : engineStep s with
    | next u =>
      rw [engineRun_next _ hs] at h ⊢
      exact ih h
    | fault r => simp [engineRun, hs] at h
    | refused r => simp [engineRun, hs] at h

/-- A running SORT ends after at most LIMIT + 1 engine steps, and before that each step lowers LIMIT (rule R145). -/
theorem engineRun_sort {a : Bool} (s : State) (hq : s.seq = .run (.sort a)) :
    ∃ k, 1 ≤ k ∧ k ≤ s.limit.toNat + 1 ∧ engineRun k s = .next (sortFinal a s) ∧
      ∀ m u, m < k → engineRun m s = .next u → u.seq = .run (.sort a) ∧ u.limit.toNat + m ≤ s.limit.toNat := by
  induction hm : s.limit.toNat using Nat.strong_induction_on generalizing s with
  | _ l ih =>
    have zero : ∀ u, engineRun 0 s = .next u → u.seq = .run (.sort a) ∧ u.limit.toNat + 0 ≤ l := by
      intro u hu
      obtain rfl := Host.Outcome.next.inj hu
      exact ⟨hq, hm.le⟩
    rcases exec_sort_final_or_moved a s with ⟨e, -⟩ | ⟨B, limit, hi, e, hfinal⟩ <;> rw [← engineStep_run hq] at e
    · refine ⟨1, le_rfl, by omega, engineRun_next 0 e, fun m u hmk hu => ?_⟩
      obtain rfl : m = 0 := by omega
      exact zero u hu
    · obtain ⟨c, hc, hsum, -⟩ := sortIteration_moved hi
      obtain ⟨k, h1, hk, hend, hbefore⟩ := ih limit.toNat (by omega) { s with wbuf := B, limit := limit } hq rfl
      refine ⟨k + 1, by omega, by omega, by rw [engineRun_next k e, hend, hfinal], fun m u hmk hu => ?_⟩
      cases m with
      | zero => exact zero u hu
      | succ m =>
        rw [engineRun_next m e] at hu
        obtain ⟨hrun, hlimit⟩ := hbefore m u (by omega) hu
        exact ⟨hrun, by omega⟩

/-- LIMIT + 1 engine steps end a SORT; those left over do nothing (rule R213). -/
theorem engineRun_latch_sort (a : Bool) (s : State) :
    engineRun (s.limit.toNat + 1) (latchCommand (.sort a) s) = .next (sortFinal a (latchCommand (.sort a) s)) := by
  obtain ⟨k, -, hk, hend, -⟩ := engineRun_sort (a := a) (latchCommand (.sort a) s) rfl
  have hsum : s.limit.toNat + 1 = k + (s.limit.toNat + 1 - k) := by
    rw [latchCommand_limit] at hk; omega
  rw [hsum, engineRun_add hend, engineRun_idle _ rfl]

/-- Settles O42: the SORT runs to `sortFinal`, whose flags say how it ended. -/
theorem sortFinishes : Obligations.SortFinishes := by
  intro a s hq hsorted hexhausted
  obtain ⟨k, h1, hk, hend, hbefore⟩ := engineRun_sort s hq
  obtain ⟨hflag, hlimit⟩ := sortWithLimit_flag (a := a) (n := s.len.toNat) s.wbuf s.limit
  refine ⟨k, sortFinal a s, h1, hk, hend, hbefore, rfl, ?_, ?_, ?_⟩
  · simp [sortFinal, hsorted, hexhausted]
  · simpa [sortFinal, hexhausted] using hlimit
  · simpa [sortFinal, hsorted] using hflag

/-- Settles O43: an iteration that moves makes standard steps, and each keeps the bytes of the sequence and all bytes
after it. -/
theorem sortPermutesItsSequence : Obligations.SortPermutesItsSequence := by
  intro a s t k hn hq hrun
  induction k generalizing s with
  | zero =>
    obtain rfl := Host.Outcome.next.inj hrun
    exact ⟨.refl _, fun _ _ _ => rfl⟩
  | succ k ih =>
    rcases exec_sort_final_or_moved a s with ⟨e, hw⟩ | ⟨B, limit, hi, e, -⟩ <;>
      rw [engineRun_next k ((engineStep_run hq).trans e)] at hrun
    · rw [engineRun_idle k rfl] at hrun
      obtain rfl := Host.Outcome.next.inj hrun
      exact ⟨by rw [State.sequence, hw]; exact .refl _, fun j _ _ => by rw [hw]⟩
    · obtain ⟨c, -, -, hmoved⟩ := sortIteration_moved hi
      obtain ⟨-, rfl⟩ := hmoved hn
      obtain ⟨hperm, hout⟩ := ih { s with wbuf := predecessors s.len.toNat c s.wbuf, limit := limit } hn hq hrun
      refine ⟨hperm.trans (predecessors_perm hn c), fun j hj hnj => (hout j hj hnj).trans ?_⟩
      exact byteAt_predecessors_outside c hj hnj

/-! ## The result of a SORT (section 4 of `41_sort_engine.md`) -/

/-- SORT.NA makes one standard step per engine step as long as the sequence is not sorted and LIMIT lasts. -/
theorem engineRun_sort_na {s : State} {m : Nat} (hn : s.len.toNat ≤ 256) (hq : s.seq = .run (.sort false))
    (hrank : m ≤ rank s.sequence) (hlimit : m ≤ s.limit.toNat) : engineRun m s = .next { s with
      wbuf := predecessors s.len.toNat m s.wbuf, limit := BitVec.ofNat 64 (s.limit.toNat - m) } := by
  induction m generalizing s with
  | zero => simp [engineRun]
  | succ m ih =>
    have hns : ¬ NonDecreasing s.wbuf s.len.toNat := fun h => by
      have := (rank_eq_zero_iff hn).2 h
      rw [State.sequence] at hrank; omega
    have h0 : s.limit ≠ 0 := by
      rintro h; simp [h] at hlimit
    have hstep := (engineStep_run hq).trans (exec_sort_standard hns h0 (tailRun_spec _ _) fun h => Bool.noConfusion h.1)
    have hlimit' := toNat_sub_one_add_one h0
    have hrank' := rank_predecessor hn hns
    rw [engineRun_next m hstep, ih (s := { s with wbuf := predecessor s.wbuf s.len.toNat, limit := s.limit - 1 }) hn hq
      (by rw [State.sequence] at hrank ⊢; dsimp only; omega) (by dsimp only; omega)]
    have hsum : (s.limit - 1).toNat - m = s.limit.toNat - (m + 1) := by omega
    simp only [hsum]
    rfl

/-- Settles O39: the skip's move and charge are those of `l! - 1` standard steps, and SORT.NA makes them. -/
theorem skipEqualsStandardSteps : Obligations.SkipEqualsStandardSteps := by
  intro s t l hn hq hrun hskip hexec
  obtain ⟨c, hc, hle, e⟩ := exec_sort_skip hrun hskip
  obtain rfl := Host.Outcome.next.inj (e.symm.trans hexec)
  obtain ⟨-, h2, -, hlimit⟩ := hskip
  have hrank := rank_reverseTail hn hrun
  rw [engineRun_sort_na hn hq (by rw [State.sequence]; omega) hlimit,
    reverseTail_eq_predecessors hn hrun (by omega)]
  have hcharge : BitVec.ofNat 64 (s.limit.toNat - (l.factorial - 1)) = s.limit - c := by
    rw [← skipCharge_toNat hc, ← BitVec.toNat_sub_of_le hle, BitVec.ofNat_toNat, BitVec.setWidth_eq]
  rw [hcharge]

/-- Settles O40: both runs end in `sortFinal`, which is the same for both. -/
theorem accelerationKeepsTheResult : Obligations.AccelerationKeepsTheResult := by
  intro s hn
  refine ⟨_, rfl, engineRun_latch_sort true s, ?_⟩
  rw [engineRun_latch_sort]
  simp [sortFinal, sortWithLimit_accel hn, finish, latchCommand, isSort]

/-- Settles O41: the state in which the SORT ends, read in the closed form. -/
theorem sortClosedForm : Obligations.SortClosedForm := by
  intro a s hn
  refine ⟨_, engineRun_latch_sort a s, rfl, ?_⟩
  have hrank := rank_predecessors hn (Nat.min_le_right s.limit.toNat (rank s.sequence))
  have hlimit := s.limit.isLt
  simp only [sortFinal, State.sequence, finish_wbuf, finish_len, finish_limit, finish_sorted, finish_exhausted,
    latchCommand_wbuf, latchCommand_len, latchCommand_limit, latchCommand_sorted, latchCommand_exhausted,
    sortWithLimit_eq hn, isSort] at hrank ⊢
  refine ⟨predecessors_perm hn _, by omega, ?_, by simp, by simp⟩
  rw [BitVec.toNat_ofNat, Nat.mod_eq_of_lt (by omega)]
  omega

/-- Settles O44: there are at most `20!` arrangements, fewer than the maximum LIMIT. -/
theorem maximumLimitSortsTwentyBytes : Obligations.MaximumLimitSortsTwentyBytes := by
  intro a s hlen _ hlimit
  have hrank : rank s.sequence ≤ s.limit.toNat := calc
    rank s.sequence ≤ s.sequence.length.factorial := rank_le_factorial _
    _ = s.len.toNat.factorial := by rw [State.sequence, prefixOf_length _ _ (by omega)]
    _ ≤ (20).factorial := Nat.factorial_le hlen
    _ ≤ s.limit.toNat := by rw [hlimit]; decide
  have hsorted : (sortFinal a (latchCommand (.sort a) s)).sorted = true := by
    rw [State.sequence] at hrank
    simp [sortFinal, sortWithLimit_eq (show s.len.toNat ≤ 256 by omega), hrank]
  refine ⟨_, _, engineRun_latch_sort a s, rfl, hsorted, ?_⟩
  refine (sortWithLimit_flag (a := a) s.wbuf s.limit).1.1 ?_
  simpa [sortFinal, isSort] using hsorted

/-- Settles O45: the descending sequence has rank `21! - 1`, more than the maximum LIMIT. -/
theorem twentyOneDescendingExhausts : Obligations.TwentyOneDescendingExhausts := by
  intro a s hlen hlimit hbytes
  have hrun : TailRunIs s.wbuf 21 21 := by
    have hdesc : ∀ k, k < 20 → BitVec.ofNat 8 (20 - (k + 1)) < BitVec.ofNat 8 (20 - k) := by decide
    refine .inr ⟨by omega, le_rfl, fun k _ hk => ?_, .inl rfl⟩
    rw [hbytes k (by omega), hbytes (k + 1) hk]
    exact hdesc k (by omega)
  have hrank := rank_reverseTail (by omega) hrun
  have hlt : ¬ rank (prefixOf s.wbuf 21) ≤ s.limit.toNat := by
    have hfac : s.limit.toNat < (21).factorial - 1 := by rw [hlimit]; decide
    omega
  refine ⟨_, _, engineRun_latch_sort a s, rfl, ?_⟩
  have hn : s.len.toNat = 21 := by rw [hlen]; rfl
  simp [sortFinal, hn, sortWithLimit_eq (show 21 ≤ 256 by omega), hlt]

end Sys2Proof.Machine
end

section
/-! Rules of the whole machine: what a step of each agent can write (O49 to O51, O12, O13), that no step stops (O6),
the invariant (O47, O48), that every command finishes (O52), and which step is made (O4, O5, O7). -/

namespace Sys2Proof.Machine

/-! ## Which step is made -/

theorem popMove_of_sched_nil {s : State} (h : s.sched = []) : popMove s = s := by
  rw [popMove, h, List.tail_nil, ← h]

theorem nextMove_running {s : State} {i : Instr} (hq : s.seq = .run i) (h : s.sched = []) : nextMove s = .engine := by
  simp [nextMove, h, hq]

theorem nextMove_idle {s : State} (hq : s.seq = .idle) (h : s.sched = []) : nextMove s = .host := by
  simp [nextMove, h, hq]

/-- With no move prescribed a running command's engine step is the step (log entry 5). -/
theorem step_running_default {s : State} {i : Instr} (hq : s.seq = .run i) (h : s.sched = []) :
    step s = exec i s := by
  rw [step, nextMove_running hq h, popMove_of_sched_nil h, perform, engineStep_run hq]

/-- With no move prescribed the host's step is the step of an idle block (log entry 5). -/
theorem step_idle_default {s : State} (hq : s.seq = .idle) (h : s.sched = []) :
    step s = .next (hostStep false s) := by
  rw [step, nextMove_idle hq h, popMove_of_sched_nil h, perform]

/-- Settles O4: an engine move is the engine's step, and that is `exec` of the latched command. -/
theorem stepRunsTheLatchedCommand : Obligations.StepRunsTheLatchedCommand :=
  ⟨fun s _ hq => (step_engineNext s).trans (engineStep_run hq), fun _ _ => step_running_default,
    fun _ => step_engineNext_idle⟩

/-- Settles O7: the host moves, and an empty program is no step. -/
theorem idleBlockKeepsItsState : Obligations.IdleBlockKeepsItsState := by
  intro s hq hsched hprog
  rw [step_idle_default hq hsched, hostStep, hprog]

theorem needsSeed_eq (i : Instr) : needsSeed i = decide (i = .gen) := by
  cases i <;> rfl

/-- Settles O5: the placed word is latched with an engine move in front. -/
theorem placedWordIsRun : Obligations.PlacedWordIsRun := by
  intro s w i h
  have hd : decode (BitVec.ofNat 32 (w % 2 ^ 32)) = .ok i := by
    cases hd : decode (BitVec.ofNat 32 (w % 2 ^ 32)) <;> simp_all [decodeTableWord]
  simp only [State.withFetchWord, placeCommand, hd, seededFor, needsSeed_eq]
  rfl

/-! ## The engine's writes -/

/-- Every command has its meaning: its engine step answers a next state. -/
theorem exec_next (i : Instr) (s : State) : ∃ t, exec i s = .next t := by
  rcases exec_cases i s with ⟨-, e⟩ | ⟨-, e⟩ | ⟨-, e⟩ | ⟨-, e⟩ | ⟨-, e⟩ | ⟨a, -, e | e | ⟨B, l, e⟩⟩ <;>
    exact ⟨_, e⟩

/-- What the engine step of `i` may write. -/
structure EngineWrites (i : Instr) (s t : State) : Prop where
  seed : t.seed = s.seed
  len : t.len = s.len
  g : t.g ≠ s.g → i = .seed ∨ i = .gen
  perm : t.perm ≠ s.perm → i = .gen
  wbuf : t.wbuf ≠ s.wbuf → i = .loadc ∨ ∃ a, i = .sort a
  limit : t.limit ≠ s.limit → i = .gen ∨ ∃ a, i = .sort a
  seeded : t.seeded ≠ s.seeded → t.seeded = true ∧ i = .seed
  sorted : t.sorted ≠ s.sorted → t.sorted = true ∧ ∃ a, i = .sort a
  exhausted : t.exhausted ≠ s.exhausted → t.exhausted = true ∧ ∃ a, i = .sort a
  err : t.err ≠ s.err → t.err = 0 ∧ i = .clrerr

theorem exec_writes {i : Instr} {s t : State} (h : exec i s = .next t) : EngineWrites i s t := by
  rcases exec_cases i s with ⟨rfl, e⟩ | ⟨rfl, e⟩ | ⟨rfl, e⟩ | ⟨rfl, e⟩ | ⟨rfl, e⟩ | ⟨a, rfl, e | e | ⟨B, l, e⟩⟩ <;>
    obtain rfl := Host.Outcome.next.inj (e.symm.trans h) <;>
    constructor <;> simp [seedWith, genWith]

/-! ## The host's writes -/

theorem errCode_bounds (e : ErrCode) : 1 ≤ e.code.toNat ∧ e.code.toNat ≤ 6 := by
  cases e <;> decide

theorem errCode_ne_zero (e : ErrCode) : e.code ≠ 0#4 := by
  cases e <;> decide

/-- With BUSY = 1 every write of the port is rejected (rules R60, R64). -/
theorem memWrite_busy (a : WordAddr) (v : Word) {s : State} (hb : s.busy = true) :
    ∃ e, memWrite a v s = raiseError e s := by
  rcases memWrite_cases a v s with h | ⟨hb', -⟩ | ⟨hb', -⟩
  · exact h
  all_goals simp [hb] at hb'

/-- Settles O12: a write is a rejection, or it leaves ERR. -/
theorem rejectionIsPrecise : Obligations.RejectionIsPrecise := by
  intro s a v
  refine ⟨_, step_hostNext_wr s a v, ?_⟩
  rcases memWrite_cases a v s with ⟨e, h⟩ | ⟨-, i, -, h⟩ | ⟨-, x, n, l, B, -, h⟩ <;> rw [h]
  · exact .inr ⟨rfl, errCode_bounds e⟩
  · exact .inl rfl
  · exact .inl rfl

/-- With BUSY = 1 a host step leaves everything but the host, ERR and the count of free values. -/
theorem hostStep_busy {s : State} (hb : s.busy = true) :
    ∃ h e d, hostStep false s = { s with host := h, err := e, draws := d } := by
  rcases hostStep_cases false s with ⟨h, d, e⟩ | ⟨-, a, v, h, e⟩
  · exact ⟨h, s.err, d, e⟩
  · obtain ⟨c, hc⟩ := memWrite_busy a v hb
    exact ⟨h, c.code, s.draws, by rw [e, hc]; rfl⟩

/-- Settles O13: the host moves on a busy block. -/
theorem hostCannotDisturbRunningCommand : Obligations.HostCannotDisturbRunningCommand := by
  intro s hb hm
  obtain ⟨h, e, d, hs⟩ := hostStep_busy (s := popMove s) hb
  exact ⟨h, e, d, by rw [step, hm, perform, hs]; rfl⟩

/-- What a host step may write. -/
structure HostWrites (s t : State) : Prop where
  g : t.g = s.g
  perm : t.perm = s.perm
  seeded : t.seeded = s.seeded
  seed : t.seed ≠ s.seed → s.busy = false
  len : t.len ≠ s.len → s.busy = false
  limit : t.limit ≠ s.limit → s.busy = false
  wbuf : t.wbuf ≠ s.wbuf → s.busy = false
  sorted : t.sorted ≠ s.sorted → t.sorted = false ∧ ∃ a, t.seq = .run (.sort a)
  exhausted : t.exhausted ≠ s.exhausted → t.exhausted = false ∧ ∃ a, t.seq = .run (.sort a)
  err : t.err ≠ s.err → t.err ≠ 0

theorem isSort_iff {i : Instr} : isSort i = true ↔ ∃ a, i = .sort a := by
  cases i <;> simp [isSort]

/-- A status bit that latching clears is cleared for a SORT (rule R31). -/
theorem and_not_isSort_ne {b : Bool} {i : Instr} (h : (b && !isSort i) ≠ b) :
    (b && !isSort i) = false ∧ ∃ a, i = .sort a := by
  cases hs : isSort i with
  | true => exact ⟨by simp, isSort_iff.1 hs⟩
  | false => simp [hs] at h

theorem memWrite_writes (a : WordAddr) (v : Word) (s : State) : HostWrites s (memWrite a v s) := by
  rcases memWrite_cases a v s with ⟨e, h⟩ | ⟨hb, i, -, h⟩ | ⟨hb, x, n, l, B, -, h⟩ <;> rw [h]
  · constructor <;> simp [errCode_ne_zero]
  · constructor
    case sorted | exhausted =>
      exact fun hne => (and_not_isSort_ne hne).imp_right fun ⟨a, ha⟩ => ⟨a, congrArg Seq.run ha⟩
    all_goals simp
  · constructor <;> simp [hb]

theorem hostStep_writes (s : State) : HostWrites s (hostStep false s) := by
  rcases hostStep_cases false s with ⟨h, d, e⟩ | ⟨-, a, v, h, e⟩ <;> rw [e]
  · constructor <;> simp
  · obtain ⟨hg, hperm, hseeded, hseed, hlen, hlimit, hwbuf, hsorted, hexhausted, herr⟩ := memWrite_writes a v s
    exact ⟨hg, hperm, hseeded, hseed, hlen, hlimit, hwbuf, hsorted, hexhausted, herr⟩

/-! ## Who writes what -/

/-- Settles O6: only an engine step could fail to answer, and none does. -/
theorem everyStepAnswersNext : Obligations.EveryStepAnswersNext := by
  intro s
  rcases step_cases s with ⟨-, e⟩ | ⟨-, -, e⟩ | ⟨-, i, -, e⟩ | ⟨-, e⟩ | ⟨-, e⟩
  case inr.inr.inl => exact e ▸ exec_next i _
  all_goals exact ⟨_, e⟩

/-- What a step that is no reset may write, by its agent. -/
theorem step_writes {s t : State} (h : step s = .next t) (hr : nextMove s ≠ .reset)
    (hro : nextMove s ≠ .resetOverAccess) :
    (nextMove s = .host ∧ HostWrites (popMove s) t) ∨
    (nextMove s = .engine ∧ t = popMove s) ∨
    (nextMove s = .engine ∧ ∃ i, s.seq = .run i ∧ EngineWrites i (popMove s) t) := by
  rcases step_cases s with ⟨hm, e⟩ | ⟨hm, -, e⟩ | ⟨hm, i, hq, e⟩ | ⟨hm, -⟩ | ⟨hm, -⟩
  · obtain rfl := Host.Outcome.next.inj (e.symm.trans h)
    exact .inl ⟨hm, hostStep_writes _⟩
  · exact .inr (.inl ⟨hm, Host.Outcome.next.inj (h.symm.trans e)⟩)
  · exact .inr (.inr ⟨hm, i, hq, exec_writes (e.symm.trans h)⟩)
  · exact absurd hm hr
  · exact absurd hm hro

/-- Settles O49: read off what each agent may write. -/
theorem writersOfTheBuffers : Obligations.WritersOfTheBuffers := by
  intro s t h hr hro
  rcases step_writes h hr hro with ⟨hm, w⟩ | ⟨-, rfl⟩ | ⟨hm, i, hq, w⟩
  · exact ⟨fun hne => absurd w.g hne, fun hne => absurd w.perm hne, fun hne => .inr ⟨hm, w.wbuf hne⟩⟩
  · simp
  · simp only [hm, hq, Seq.run.injEq, true_and]
    exact ⟨w.g, w.perm, fun hne => .inl (w.wbuf hne)⟩

/-- Settles O50: read off what each agent may write. -/
theorem writersOfTheRegisters : Obligations.WritersOfTheRegisters := by
  intro s t h hr hro
  rcases step_writes h hr hro with ⟨hm, w⟩ | ⟨-, rfl⟩ | ⟨hm, i, hq, w⟩
  · exact ⟨fun hne => ⟨hm, w.seed hne⟩, fun hne => ⟨hm, w.len hne⟩, fun hne => .inr ⟨hm, w.limit hne⟩⟩
  · simp
  · simp only [hm, hq, Seq.run.injEq, true_and]
    exact ⟨fun hne => absurd w.seed hne, fun hne => absurd w.len hne, fun hne => .inl (w.limit hne)⟩

/-- Settles O51: read off what each agent may write. -/
theorem writersOfTheStatusBits : Obligations.WritersOfTheStatusBits := by
  intro s t h hr hro
  rcases step_writes h hr hro with ⟨hm, w⟩ | ⟨-, rfl⟩ | ⟨hm, i, hq, w⟩
  · refine ⟨fun hne => absurd w.seeded hne, fun hne => .inr ?_, fun hne => .inr ?_, fun hne => .inr ⟨w.err hne, hm⟩⟩
    · obtain ⟨hclear, hsort⟩ := w.sorted hne
      exact ⟨hclear, hm, hsort⟩
    · obtain ⟨hclear, hsort⟩ := w.exhausted hne
      exact ⟨hclear, hm, hsort⟩
  · simp
  · simp only [hm, hq, Seq.run.injEq, true_and]
    exact ⟨w.seeded, fun hne => .inl (w.sorted hne), fun hne => .inl (w.exhausted hne),
      fun hne => .inl (w.err hne)⟩

/-! ## The invariant -/

/-- Settles O48: every field the invariant speaks of is 0 or idle after reset. -/
theorem resetMeetsInvariant : Obligations.ResetMeetsInvariant := by
  constructor <;> simp [State.reset]

/-- A state meets the invariant when one that agrees with it on the fields the invariant speaks of does. -/
theorem State.Inv.congr {s t : State} (h : s.Inv) (hseq : t.seq = s.seq) (hbusy : t.busy = s.busy)
    (hlen : t.len = s.len) (herr : t.err = s.err) (hsorted : t.sorted = s.sorted)
    (hexhausted : t.exhausted = s.exhausted) (hseeded : t.seeded = s.seeded) : t.Inv := by
  obtain ⟨h1, h2, h3, h4, h5, h6⟩ := h
  constructor <;> simp only [hseq, hbusy, hlen, herr, hsorted, hexhausted, hseeded] <;> assumption

/-- An idle state needs no more than legal LEN, ERR and flags. -/
theorem inv_finish {s : State} (hlen : s.len.toNat ≤ 256) (herr : s.err.toNat ≤ 6)
    (hboth : ¬ (s.sorted = true ∧ s.exhausted = true)) : (finish s).Inv :=
  ⟨by simp, hlen, herr, hboth, by simp, by simp⟩

theorem exec_inv {i : Instr} {s t : State} (hinv : s.Inv) (hq : s.seq = .run i) (h : exec i s = .next t) :
    t.Inv := by
  have hlen := hinv.len_le
  have herr := hinv.err_le
  have hboth := hinv.not_both
  rcases exec_cases i s with ⟨-, e⟩ | ⟨-, e⟩ | ⟨-, e⟩ | ⟨-, e⟩ | ⟨-, e⟩ | ⟨a, rfl, e | e | ⟨B, l, e⟩⟩ <;>
    obtain rfl := Host.Outcome.next.inj (e.symm.trans h)
  · exact inv_finish hlen herr hboth
  · exact inv_finish hlen herr hboth
  · exact inv_finish hlen herr hboth
  · exact inv_finish hlen herr hboth
  · exact inv_finish hlen (by simp) hboth
  · exact inv_finish hlen herr (by simp [hinv.sorting a hq])
  · exact inv_finish hlen herr (by simp [hinv.sorting a hq])
  · exact hinv.congr rfl rfl rfl rfl rfl rfl rfl

theorem latchCommand_inv {i : Instr} {s : State} (hinv : s.Inv) (hs : i = .gen → s.seeded = true) :
    (latchCommand i s).Inv where
  busy_iff := by simp
  len_le := hinv.len_le
  err_le := hinv.err_le
  not_both := fun ⟨h1, h2⟩ => hinv.not_both ⟨by simp_all, by simp_all⟩
  sorting a ha := by
    obtain rfl := Seq.run.inj ha
    simp [isSort]
  gen_seeded hg := hs (Seq.run.inj hg)

theorem memWrite_inv {s : State} (hinv : s.Inv) (a : WordAddr) (v : Word) : (memWrite a v s).Inv := by
  obtain ⟨hbusy, hlen, herr, hboth, hsorting, hgen⟩ := hinv
  rcases memWrite_cases a v s with ⟨e, h⟩ | ⟨-, i, hs, h⟩ | ⟨-, x, n, l, B, hn, h⟩ <;> rw [h]
  · exact ⟨hbusy, hlen, (errCode_bounds e).2, hboth, hsorting, hgen⟩
  · exact latchCommand_inv ⟨hbusy, hlen, herr, hboth, hsorting, hgen⟩ hs
  · exact ⟨hbusy, hn.elim id fun h => h ▸ hlen, herr, hboth, hsorting, hgen⟩

/-- Settles O47: each agent's step keeps the invariant, and a reset gives the values it holds of. -/
theorem stepKeepsInvariant : Obligations.StepKeepsInvariant := by
  intro s t hinv h
  have hpop : (popMove s).Inv := hinv.congr rfl rfl rfl rfl rfl rfl rfl
  rcases step_cases s with ⟨-, e⟩ | ⟨-, -, e⟩ | ⟨-, i, hq, e⟩ | ⟨-, e⟩ | ⟨-, e⟩
  · obtain rfl := Host.Outcome.next.inj (e.symm.trans h)
    rcases hostStep_cases false (popMove s) with ⟨h, d, e⟩ | ⟨-, a, v, h, e⟩ <;> rw [e]
    · exact hpop.congr rfl rfl rfl rfl rfl rfl rfl
    · exact (memWrite_inv hpop a v).congr rfl rfl rfl rfl rfl rfl rfl
  · exact Host.Outcome.next.inj (e.symm.trans h) ▸ hpop
  · exact exec_inv hpop hq (e.symm.trans h)
  · obtain rfl := Host.Outcome.next.inj (e.symm.trans h)
    exact resetMeetsInvariant.congr rfl rfl rfl rfl rfl rfl rfl
  · obtain rfl := Host.Outcome.next.inj (e.symm.trans h)
    exact resetMeetsInvariant.congr rfl rfl rfl rfl rfl rfl rfl

/-! ## Every command finishes -/

/-- The state in which a latched command ends. -/
def commandEnd : Instr → State → State
  | .nop, s => finish s
  | .seed, s => seedWith Config.prng s
  | .gen, s => genWith Config.prng s
  | .loadc, s => finish { s with wbuf := copyPrefix s.len.toNat s.perm s.wbuf }
  | .sort a, s => sortFinal a s
  | .clrerr, s => finish { s with err := 0 }

theorem commandEnd_seq (i : Instr) (s : State) : (commandEnd i s).seq = .idle := by
  cases i <;> rfl

theorem commandEnd_busy (i : Instr) (s : State) : (commandEnd i s).busy = false := by
  cases i <;> rfl

theorem commandEnd_host (i : Instr) (s : State) : (commandEnd i s).host = s.host := by
  cases i <;> rfl

theorem commandEnd_sched (i : Instr) (s : State) : (commandEnd i s).sched = s.sched := by
  cases i <;> rfl

/-- An engine step ends its command in `commandEnd`, or is an iteration of a SORT that will still end there. -/
theorem exec_commandEnd {i : Instr} {s t : State} (h : exec i s = .next t) :
    t = commandEnd i s ∨ (t.seq = s.seq ∧ t.busy = s.busy ∧ t.host = s.host ∧ t.sched = s.sched ∧
      t.limit.toNat < s.limit.toNat ∧ commandEnd i t = commandEnd i s) := by
  cases i with
  | sort a =>
    rcases exec_sort_final_or_moved a s with ⟨e, -⟩ | ⟨B, limit, hi, e, hfinal⟩ <;>
      obtain rfl := Host.Outcome.next.inj (e.symm.trans h)
    · exact .inl rfl
    · obtain ⟨c, hc, hsum, -⟩ := sortIteration_moved hi
      exact .inr ⟨rfl, rfl, rfl, rfl, by dsimp only; omega, hfinal⟩
  | nop | seed | gen | loadc | clrerr => exact .inl (Host.Outcome.next.inj h).symm

/-- The engine touches neither the host nor the interleaving. -/
theorem exec_host_sched {i : Instr} {s t : State} (h : exec i s = .next t) : t.host = s.host ∧ t.sched = s.sched := by
  rcases exec_commandEnd h with rfl | ⟨-, -, hhost, hsched, -⟩
  · exact ⟨commandEnd_host i s, commandEnd_sched i s⟩
  · exact ⟨hhost, hsched⟩

/-- While a command runs, the host moves only where that is prescribed (log entry 5). -/
theorem sched_of_nextMove_host {s : State} {i : Instr} (hq : s.seq = .run i) (hm : nextMove s = .host) :
    s.sched ≠ [] := by
  intro h
  rw [nextMove_running hq h] at hm
  cases hm

/-- A step of a running block ends the command, or uses up a prescribed move or some of LIMIT. -/
theorem step_running {s : State} {i : Instr} (hb : s.busy = true) (hq : s.seq = .run i) :
    ∃ t, step s = .next t ∧ (t.seq = .idle ∨ (t.busy = true ∧ t.seq = .run i ∧
      t.sched.length + t.limit.toNat < s.sched.length + s.limit.toNat)) := by
  rcases step_cases s with ⟨hm, e⟩ | ⟨-, hidle, -⟩ | ⟨-, j, hj, e⟩ | ⟨-, e⟩ | ⟨-, e⟩
  · obtain ⟨h, c, d, hs⟩ := hostStep_busy (s := popMove s) hb
    have hne := List.length_pos_of_ne_nil (sched_of_nextMove_host hq hm)
    refine ⟨_, e, .inr ⟨by rw [hs]; exact hb, by rw [hs]; exact hq, ?_⟩⟩
    rw [hs]
    simp only [popMove_sched, popMove_limit, List.length_tail]
    omega
  · simp [hq] at hidle
  · obtain ⟨t, ht⟩ := exec_next j (popMove s)
    refine ⟨t, e.trans ht, ?_⟩
    rcases exec_commandEnd ht with rfl | ⟨hseq, hbusy, -, hsched, hlimit, -⟩
    · exact .inl (commandEnd_seq j _)
    · refine .inr ⟨hbusy.trans hb, hseq.trans hq, ?_⟩
      rw [hsched, popMove_sched, List.length_tail]
      rw [popMove_limit] at hlimit
      omega
  · exact ⟨_, e, .inl rfl⟩
  · exact ⟨_, e, .inl rfl⟩

/-- Settles O52: prescribed moves and LIMIT together bound the steps of a running command. -/
theorem everyAcceptedCommandFinishes : Obligations.EveryAcceptedCommandFinishes := by
  intro s i hinv hq
  have hb : s.busy = true := hinv.busy_iff.2 (by simp [hq])
  clear hinv
  induction hm : s.sched.length + s.limit.toNat using Nat.strong_induction_on generalizing s with
  | _ m ih =>
    obtain ⟨t, hstep, hidle | ⟨hb', hq', hlt⟩⟩ := step_running hb hq
    · exact ⟨1, t, by omega, run_succ 0 hstep, hidle⟩
    · obtain ⟨k, u, hk, hrun, hidle⟩ := ih _ (by omega) t hq' hb' rfl
      exact ⟨k + 1, u, by omega, (run_succ k hstep).trans hrun, hidle⟩

end Sys2Proof.Machine
end

section
/-! The host port: STATUS (O16), POLL (O18), the acceptance of a SORT (O30), and the pseudo-instructions that write
and read registers and buffers on an idle block (O19, O20). -/

namespace Sys2Proof.Machine

/-! ## STATUS, POLL and acceptance -/

/-- The flags of STATUS after BUSY (rule R29). -/
theorem statusWord_flags (s : State) : (statusWord s).getLsbD 1 = s.sorted ∧
    (statusWord s).getLsbD 2 = s.exhausted ∧ (statusWord s).getLsbD 3 = s.seeded := by
  simp only [statusWord, BitVec.getLsbD_append]
  simp

/-- STATUS above its flags: ERR at [11:8], the other bits 0 (rule R29). -/
theorem statusWord_getLsbD_of_le (s : State) {k : Nat} (h4 : 4 ≤ k) :
    (statusWord s).getLsbD k = if 8 ≤ k then s.err.getLsbD (k - 8) else false := by
  simp only [statusWord, BitVec.getLsbD_append, BitVec.getLsbD_ofBool]
  by_cases h12 : k < 12
  · interval_cases k <;> simp
  · simp [h12, show 8 ≤ k by omega, BitVec.getLsbD_of_ge s.err (k - 8) (by omega)]

/-- Settles O16: STATUS bit by bit; a write of it fails the first check of a data write. -/
theorem statusWordLayout : Obligations.StatusWordLayout := by
  refine ⟨fun s => ?_, statusWord_reset, fun s v => ?_⟩
  · obtain ⟨hsorted, hexhausted, hseeded⟩ := statusWord_flags s
    refine ⟨statusWord_getLsbD_zero s, hsorted, hexhausted, hseeded, ?_, ?_, ?_⟩ <;>
      refine BitVec.eq_of_getLsbD_eq fun k hk => ?_ <;>
      rw [BitVec.getLsbD_extractLsb', statusWord_getLsbD_of_le s (by omega)]
    · simp [show ¬ 8 ≤ 4 + k by omega]
    · simp [hk]
    · simp [BitVec.getLsbD_of_ge s.err (12 + k - 8) (by omega)]
  · rw [step_wr_data (by decide), dataWrite_badAddr (by decide)]
    rfl

/-- A POLL reads STATUS exactly, and is done when BUSY reads 0 (rule R88). -/
theorem hostStep_poll {s : State} {rest : List HostOp} (hp : s.host.prog = .poll :: rest) :
    hostStep false s = recordRead (wordOf 0x004) (statusWord s) (if s.busy then s else hostGoesOn rest s) := by
  have hread : memRead (wordOf 0x004) s = (statusWord s, s) := by
    simp [memRead, exactRead, show regionOf (wordOf 0x004) = .status by decide, Region.engineOwned]
  rw [hostStep, hp]
  simp only [portRead, Bool.false_eq_true, if_false, hread, statusWord_getLsbD_zero]

/-- Settles O18: the read is exact, and its bit 0 is BUSY. -/
theorem pollWaitsForIdle : Obligations.PollWaitsForIdle := by
  refine fun s => ⟨fun hb => ?_, step_poll_idle⟩
  rw [step_hostNext, hostStep_poll rfl, if_pos hb]
  rfl

/-- Settles O30: SORT and SORT.NA are treated by the port as every command is. -/
theorem sortAcceptance : Obligations.SortAcceptance := ⟨rfl, rfl, commandPort _, commandPort _⟩

/-! ## Runs of writes -/

/-- `WR64 LIMIT, v` (rule R88) in a host program. -/
theorem run_hostWriteLimit {s : State} (hq : s.seq = .idle) (hb : s.busy = false) (v : DWord) (p : List HostOp)
    (k : Nat) : Host.Core.run Sys2Proof.core (k + 2) (s.withProgram (hostWriteLimit v ++ p)) =
      Host.Core.run Sys2Proof.core k (({ s with limit := v } : State).withProgram p) := by
  have hlo := step_withProgram_performs (a := wordOf 0x014) (v := lo32 v) (r := .limitLo)
    (p := .wr (wordOf 0x018) (hi32 v) :: p) hq hb (by decide) nofun rfl nofun
  have hhi := step_withProgram_performs (s := { s with limit := withLo s.limit (lo32 v) }) (a := wordOf 0x018)
    (v := hi32 v) (r := .limitHi) (p := p) hq hb (by decide) nofun rfl nofun
  exact ((run_succ _ hlo).trans (run_succ _ hhi)).trans (by simp only [performWrite, withHi_withLo, State.withProgram])

/-- Words `0` to `m - 1` of the window stored, word `w` with `v w` (rule R53). -/
def storeWords (v : Nat → Word) : Nat → Buffer → Buffer
  | 0, B => B
  | m + 1, B => storeWord (storeWords v m B) m (v m)

theorem byteAt_storeWords (v : Nat → Word) (m : Nat) (B : Buffer) {k : Nat} (hk : k < 256) :
    byteAt (storeWords v m B) k = if k / 4 < m then wordByte (v (k / 4)) (k % 4) else byteAt B k := by
  induction m with
  | zero => simp [storeWords]
  | succ m ih =>
    rw [storeWords, byteAt_storeWord _ _ _ hk, ih]
    rcases lt_trichotomy (k / 4) m with h | h | h
    · rw [if_neg h.ne, if_pos h, if_pos (by omega)]
    · rw [if_pos h, if_pos (by omega), h]
    · rw [if_neg h.ne', if_neg (by omega), if_neg (by omega)]

/-- Writes of the words of the WBUF window in order, on an idle block. -/
theorem run_writeWords {s : State} (hq : s.seq = .idle) (hb : s.busy = false) (v : Nat → Word) {m : Nat}
    (hm : m ≤ 64) (p : List HostOp) (k : Nat) :
    Host.Core.run Sys2Proof.core (k + m)
        (s.withProgram ((List.range m).map (fun w => .wr (wordOf (0x200 + 4 * w)) (v w)) ++ p)) =
      Host.Core.run Sys2Proof.core k (({ s with wbuf := storeWords v m s.wbuf } : State).withProgram p) := by
  induction m generalizing p k with
  | zero => rfl
  | succ m ih =>
    have hstep := step_withProgram_performs (s := { s with wbuf := storeWords v m s.wbuf })
      (a := wordOf (0x200 + 4 * m)) (v := v m) (r := .wbuf m) (p := p) hq hb (regionOf_wbuf (by omega)) nofun rfl nofun
    rw [List.range_succ, List.map_append, List.append_assoc, ← Nat.add_assoc, Nat.add_right_comm]
    exact (ih (by omega) _ (k + 1)).trans (run_succ k hstep)

theorem wordsFor_le {n : Nat} (h : n ≤ 256) : wordsFor n ≤ 64 := by
  unfold wordsFor; omega

theorem le_wordsFor (n : Nat) : n ≤ 4 * wordsFor n := by
  unfold wordsFor; omega

/-- The word a `WRBYTES` writes at word `w`, missing bytes 0 (rule R88). -/
def operandWord (bs : List Byte) (w : Nat) : Word :=
  packBytes (bs.getD (4 * w) 0) (bs.getD (4 * w + 1) 0) (bs.getD (4 * w + 2) 0) (bs.getD (4 * w + 3) 0)

theorem wordByte_operandWord (bs : List Byte) (w : Nat) {b : Nat} (h : b < 4) :
    wordByte (operandWord bs w) b = bs.getD (4 * w + b) 0 := by
  obtain ⟨h0, h1, h2, h3⟩ := wordByte_packBytes (bs.getD (4 * w) 0) (bs.getD (4 * w + 1) 0) (bs.getD (4 * w + 2) 0)
    (bs.getD (4 * w + 3) 0)
  interval_cases b
  exacts [h0, h1, h2, h3]

/-- Settles O19: each expansion is run write by write, and the stored words are read byte by byte. -/
theorem pseudoWritesStoreTheirOperands : Obligations.PseudoWritesStoreTheirOperands := by
  intro s hq hb
  refine ⟨fun v => ?seed, fun v => ?limit, fun bs hbs =>
    ⟨storeWords (operandWord bs) (wordsFor bs.length) s.wbuf, ?run, fun k hk => ?bytes, fun k hk hge => ?rest⟩⟩
  case seed => exact run_hostWriteSeed hq hb v [] 0
  case limit => exact run_hostWriteLimit hq hb v [] 0
  case run =>
    have h := run_writeWords hq hb (operandWord bs) (wordsFor_le hbs) [] 0
    rwa [List.append_nil, Nat.zero_add] at h
  case bytes =>
    have hk256 : k < 256 := by have := wordsFor_le hbs; omega
    rw [byteAt_storeWords _ _ _ hk256, if_pos (by omega), wordByte_operandWord _ _ (by omega), Nat.div_add_mod]
  case rest => rw [byteAt_storeWords _ _ _ hk, if_neg (by omega)]

/-! ## Runs of reads -/

/-- The record of reads of the words `addr 0` to `addr (m - 1)`, newest first. -/
def windowReads (addr : Nat → WordAddr) (m : Nat) (s : State) : List (WordAddr × Word) :=
  ((List.range m).map fun w => (addr w, exactRead (regionOf (addr w)) s)).reverse

theorem windowReads_succ (addr : Nat → WordAddr) (m : Nat) (s : State) : windowReads addr (m + 1) s =
    (addr m, exactRead (regionOf (addr m)) s) :: windowReads addr m s := by
  simp [windowReads, List.range_succ]

/-- What a word reads does not depend on the host. -/
theorem exactRead_host (r : Region) (s : State) (h : HostAgent) : exactRead r { s with host := h } = exactRead r s := by
  cases r <;> rfl

/-- Reads in order, on an idle block. -/
theorem run_reads {s : State} (hq : s.seq = .idle) (hb : s.busy = false) (addr : Nat → WordAddr) (m : Nat)
    (p : List HostOp) (k : Nat) :
    Host.Core.run Sys2Proof.core (k + m) (s.withProgram ((List.range m).map (fun w => .rd (addr w)) ++ p)) =
      Host.Core.run Sys2Proof.core k (({ s with
        host := { s.host with reads := windowReads addr m s ++ s.host.reads } } : State).withProgram p) := by
  induction m generalizing p k with
  | zero => rfl
  | succ m ih =>
    have hstep := (step_withProgram_cons (s := { s with
      host := { s.host with reads := windowReads addr m s ++ s.host.reads } }) hq (.rd (addr m)) p).trans
      (step_rd_idle _ _ hb)
    rw [List.range_succ, List.map_append, List.append_assoc, ← Nat.add_assoc, Nat.add_right_comm]
    refine (ih _ (k + 1)).trans ((run_succ k hstep).trans ?_)
    rw [windowReads_succ, State.withProgram, exactRead_host]
    rfl

/-- The bytes of the words of a window are the bytes of the buffer (rule R53). -/
theorem unpackWords_packWord (B : Buffer) (m : Nat) :
    unpackWords ((List.range m).map (packWord B)) = (List.range (4 * m)).map (byteAt B) := by
  induction m with
  | zero => rfl
  | succ m ih =>
    have hword : unpackWords [packWord B m] = (List.range 4).map fun b => byteAt B (4 * m + b) := by
      simp [unpackWords, wordByte_packWord, List.range_succ]
    rw [List.range_succ, List.map_append, unpackWords, List.flatMap_append, Nat.mul_succ, List.range_add,
      List.map_append, List.map_map]
    exact congrArg₂ _ ih hword

/-- The bytes taken from the last reads, when these were the words of a buffer's window in order (rule R88). -/
theorem bytesRead_windowReads {n : Nat} (hn : n ≤ 256) {addr : Nat → WordAddr} {s : State} {B : Buffer}
    (h : ∀ w, w < 64 → exactRead (regionOf (addr w)) s = packWord B w) (rs : List (WordAddr × Word)) :
    bytesRead n (windowReads addr (wordsFor n) s ++ rs) = prefixOf B n := by
  have hwords : (windowReads addr (wordsFor n) s).reverse.map Prod.snd =
      (List.range (wordsFor n)).map (packWord B) := by
    rw [windowReads, List.reverse_reverse, List.map_map]
    refine List.map_congr_left fun w hw => h w ?_
    have := List.mem_range.1 hw
    have := wordsFor_le hn
    omega
  rw [bytesRead, List.take_left' (by simp [windowReads]), hwords, unpackWords_packWord, ← List.map_take,
    List.take_range, min_eq_left (le_wordsFor n), prefixOf_eq_map B n hn]

/-- Settles O20: the reads are recorded in order, and their bytes are the buffer's. -/
theorem pseudoReadsReturnTheBytes : Obligations.PseudoReadsReturnTheBytes := by
  intro s n hq hb hn
  have hwbuf := run_reads hq hb (fun w => wordOf (0x200 + 4 * w)) (wordsFor n) [] 0
  have hperm := run_reads hq hb (fun w => wordOf (0x100 + 4 * w)) (wordsFor n) [] 0
  rw [List.append_nil, Nat.zero_add] at hwbuf hperm
  exact ⟨⟨_, hwbuf, bytesRead_windowReads hn (fun w hw => congrArg (exactRead · s) (regionOf_wbuf hw)) s.host.reads⟩,
    ⟨_, hperm, bytesRead_windowReads hn (fun w hw => congrArg (exactRead · s) (regionOf_perm hw)) s.host.reads⟩⟩

end Sys2Proof.Machine
end

section
/-! The generator (O26 to O28) and reset (O53, O54). -/

namespace Sys2Proof.Machine

/-! ## GEN -/

/-- Each swap of the shuffle rearranges the 256 bytes (rule R39). -/
theorem shuffle_perm (P : Prng) {n : Nat} (hn : n < 256) (g : PrngState) (B : Buffer) :
    (prefixOf (shuffle P n g B).2 256).Perm (prefixOf B 256) := by
  induction n generalizing g B with
  | zero => exact .refl _
  | succ n ih =>
    have hd := (P.draw g (n + 1)).1.isLt
    exact (ih (by omega) _ _).trans (swapBytes_prefix_perm B _ _ 256 le_rfl hn (by omega))

theorem prefixOf_all (B : Buffer) : prefixOf B 256 = B.toList := by
  rw [prefixOf_eq_map B 256 le_rfl, toList_eq_map]

/-- Settles O26: GEN shuffles the identity. -/
theorem genLeavesAPermutation : Obligations.GenLeavesAPermutation := by
  intro s
  refine ⟨genWith Config.prng s, rfl, ?_⟩
  have hid : prefixOf identityBuffer 256 = (List.range 256).map (BitVec.ofNat 8) := by
    rw [prefixOf_eq_map _ 256 le_rfl]
    exact List.map_congr_left fun k hk => byteAt_identityBuffer (List.mem_range.1 hk)
  rw [genWith_perm, ← prefixOf_all, ← hid]
  exact shuffle_perm Config.prng (by decide) s.g identityBuffer

/-- What GEN leaves in PERM, LIMIT and G depends on G only (rule R107). -/
theorem exec_gen_congr {s s' t t' : State} (hg : s.g = s'.g) (h : exec .gen s = .next t)
    (h' : exec .gen s' = .next t') : t.perm = t'.perm ∧ t.limit = t'.limit ∧ t.g = t'.g := by
  have ht : genWith Config.prng s = t := Host.Outcome.next.inj h
  have ht' : genWith Config.prng s' = t' := Host.Outcome.next.inj h'
  rw [← ht, ← ht']
  simp only [genWith, finish_perm, finish_limit, finish_g, hg, and_self]

/-- Settles O27: the two runs hold the same G after SEED, and each GEN keeps that so. -/
theorem sameSeedSamePermutations : Obligations.SameSeedSamePermutations := by
  intro s s' before after before' after' hseed h0 h0' hgen hgen'
  have hg : ∀ k, (after k).g = (after' k).g := by
    intro k
    induction k with
    | zero =>
      have ht : seedWith Config.prng s = after 0 := Host.Outcome.next.inj h0
      have ht' : seedWith Config.prng s' = after' 0 := Host.Outcome.next.inj h0'
      rw [← ht, ← ht']
      simp only [seedWith, finish_g, hseed]
    | succ k ih =>
      have hb : (before k).g = (before' k).g := (hgen k).1.trans (ih.trans (hgen' k).1.symm)
      exact (exec_gen_congr hb (hgen k).2 (hgen' k).2).2.2
  intro k
  exact exec_gen_congr ((hgen k).1.trans ((hg k).trans (hgen' k).1.symm)) (hgen k).2 (hgen' k).2

/-- A builder's instantiation with its bounded draws as numbers below the bound; outside the contract of rule R101,
where it stands for nothing, a draw is 0. -/
def boundedInstantiation (R : RawPrng) : Prng where
  seed := R.seed
  next32 := R.next32
  draw g j := if h : (R.draw g (j + 1)).1 < j + 1 then (⟨(R.draw g (j + 1)).1, h⟩, (R.draw g (j + 1)).2) else (0, g)

/-- Settles O28: a draw of the model is below its bound by its type, and inside the contract every draw fits it. -/
theorem onlyContractualGenerators : Obligations.OnlyContractualGenerators := by
  intro R
  constructor
  · rintro ⟨P, -, -, hdraw⟩ g b h2 h256
    obtain ⟨j, rfl⟩ : ∃ j, b = j + 1 := ⟨b - 1, by omega⟩
    rw [hdraw g j (by omega) (by omega)]
    exact (P.draw g j).1.isLt
  · intro hc
    refine ⟨boundedInstantiation R, rfl, rfl, fun g j h1 h255 => ?_⟩
    rw [boundedInstantiation]
    simp only [hc g (j + 1) (by omega) (by omega), dif_pos]

/-! ## Reset -/

/-- Settles O53: the values are those reset writes, and STATUS is made of them. -/
theorem resetAbandonsTheCommand : Obligations.ResetAbandonsTheCommand := by
  intro s
  refine ⟨resetBlock s, step_resetNext s, rfl, rfl, rfl, rfl, ?_, rfl, fun k hk => ⟨?_, ?_⟩, rfl, rfl⟩
  · exact statusWord_reset
  · rw [resetBlock_perm, byteAt_ofFn _ hk]
  · rw [resetBlock_wbuf, byteAt_ofFn _ hk]

/-- Settles O54: a lost write is no write, and a lost read draws a free value. -/
theorem resetBeatsAnAccess : Obligations.ResetBeatsAnAccess :=
  fun s _ _ => ⟨rfl, _, _, Config.any32 s.draws, rfl, rfl, rfl⟩

end Sys2Proof.Machine
end

section
/-! Host programs under every interleaving of host and engine, as the keystream procedure needs it (O56, O57).

The host sees the block settled, that is with a running command carried to its end, because it polls after each
command. `Leads` follows a host program on the settled block; each step of either agent keeps what it promises. -/

namespace Sys2Proof.Machine

/-! ## The settled block -/

/-- The block with its running command carried to its end. -/
def settle (s : State) : State :=
  match s.seq with
  | .idle => s
  | .run i => commandEnd i s

theorem settle_idle {s : State} (h : s.seq = .idle) : settle s = s := by
  simp [settle, h]

theorem settle_run {s : State} {i : Instr} (h : s.seq = .run i) : settle s = commandEnd i s := by
  simp [settle, h]

/-- The block alone: nothing of the host's program, the interleaving and the count of free values. -/
def still (s : State) : State := { s with host := { s.host with prog := [] }, sched := [], draws := 0 }

theorem commandEnd_still (i : Instr) (s : State) : still (commandEnd i s) = commandEnd i (still s) := by
  cases i <;> rfl

theorem settle_still (s : State) : still (settle s) = settle (still s) := by
  cases h : s.seq with
  | idle => rw [settle_idle h, settle_idle (s := still s) h]
  | run i => rw [settle_run h, settle_run (s := still s) h, commandEnd_still]

theorem exactRead_still (r : Region) (s : State) : exactRead r (still s) = exactRead r s := by
  cases r <;> rfl

theorem acceptCommand_still (v : Word) (s : State) : still (acceptCommand v s) = acceptCommand v (still s) := by
  rcases acceptCommand_cases v s with ⟨hb, h⟩ | ⟨hb, ⟨e, hd⟩, h⟩ | ⟨hb, hd, hs, h⟩ | ⟨hb, i, hd, hs, h⟩ <;> rw [h]
  · exact (acceptCommand_busy (s := still s) hb).symm
  · exact (acceptCommand_illegal (s := still s) hb hd).symm
  · obtain rfl := decode_eq_ok_iff_encode.1 hd
    exact (acceptCommand_gen_notSeeded (s := still s) hb hs).symm
  · obtain rfl := decode_eq_ok_iff_encode.1 hd
    exact (acceptCommand_encode (s := still s) hb hs).symm

theorem performWrite_still (r : Region) (v : Word) (s : State) :
    still (performWrite r v s) = performWrite r v (still s) := by
  cases r <;> rfl

theorem dataWrite_still (r : Region) (v : Word) (s : State) : still (dataWrite r v s) = dataWrite r v (still s) := by
  rcases dataWrite_cases r v s with ⟨hw, h⟩ | ⟨hw, hb, h⟩ | ⟨rfl, hb, hv, h⟩ | ⟨hw, hb, hv, h⟩ <;> rw [h]
  · exact (dataWrite_badAddr hw v (still s)).symm
  · exact (dataWrite_writeBusy (s := still s) hw hb v).symm
  · exact (dataWrite_badLen (s := still s) hb hv).symm
  · exact (performWrite_still r v s).trans (dataWrite_performs (s := still s) hw hb hv).symm

theorem memWrite_still (a : WordAddr) (v : Word) (s : State) : still (memWrite a v s) = memWrite a v (still s) := by
  unfold memWrite
  split
  · exact acceptCommand_still v s
  · exact dataWrite_still _ v s

/-! ## A host program on the settled block -/

/-- On the settled block `s` the host program leads to `Q`: a command runs to its end at its CMD write, and only a
POLL may follow that write; how often a POLL reads STATUS is open. -/
def Leads (Q : State → Prop) : List HostOp → State → Prop
  | [], s => Q s
  | .rd a :: q, s => Leads Q q (recordRead a (exactRead (regionOf a) s) s)
  | .wr a v :: q, s =>
    ((memWrite a v s).seq = .idle ∨ ∃ q', q = .poll :: q') ∧ Leads Q q (settle (memWrite a v s))
  | .poll :: q, s => ∀ rs, Leads Q q { s with host := { s.host with reads := rs } }
  | .clearKey n :: q, s => Leads Q q { s with host := { s.host with key := List.replicate n 0 } }
  | .absorb n :: q, s =>
    Leads Q q { s with host := { s.host with key := accumulate s.host.key (bytesRead n s.host.reads) } }

/-- A machine state in the middle of a host program: `q` is still to be performed before `rest`, leads to `Q` on the
settled block, and starts with a POLL while a command runs. -/
structure Pending (Q : State → Prop) (rest q : List HostOp) (s : State) : Prop where
  prog : s.host.prog = q ++ rest
  busy_iff : s.busy = true ↔ s.seq ≠ .idle
  poll : s.seq = .idle ∨ ∃ q', q = .poll :: q'
  leads : Leads Q q (still (settle s))

section Pending

variable {Q : State → Prop} {rest q : List HostOp} {s t : State}

theorem Pending.not_busy (h : Pending Q rest q s) (hq : s.seq = .idle) : s.busy = false := by
  rw [← Bool.not_eq_true, h.busy_iff, hq]
  simp

theorem Pending.busy (h : Pending Q rest q s) {i : Instr} (hq : s.seq = .run i) : s.busy = true := by
  rw [h.busy_iff, hq]
  simp

/-- Taking a move from the interleaving changes nothing here. -/
theorem Pending.after_popMove (h : Pending Q rest q s) : Pending Q rest q (popMove s) := by
  refine ⟨h.prog, h.busy_iff, h.poll, ?_⟩
  have hleads := h.leads
  rw [settle_still] at hleads ⊢
  exact hleads

/-- The engine's step leaves the settled block as it is. -/
theorem Pending.after_exec (h : Pending Q rest q s) {i : Instr} (hq : s.seq = .run i) (he : exec i s = .next t) :
    Pending Q rest q t := by
  have hprog : t.host.prog = q ++ rest := by rw [(exec_host_sched he).1, h.prog]
  rcases exec_commandEnd he with rfl | ⟨hseq, hbusy, -, -, -, hend⟩
  · refine ⟨hprog, by simp [commandEnd_seq, commandEnd_busy], .inl (commandEnd_seq i s), ?_⟩
    rw [settle_idle (commandEnd_seq i s), ← settle_run hq]
    exact h.leads
  · refine ⟨hprog, by rw [hbusy, hseq]; exact h.busy_iff, hseq ▸ h.poll, ?_⟩
    rw [settle_run (hseq.trans hq), hend, ← settle_run hq]
    exact h.leads

/-- While a command runs the host polls, and records one more read of STATUS. -/
theorem Pending.after_hostStep_running (h : Pending Q rest q s) {i : Instr} (hq : s.seq = .run i) :
    Pending Q rest q (hostStep false s) := by
  obtain ⟨q', rfl⟩ := h.poll.resolve_left (by simp [hq])
  have hleads : Leads Q (.poll :: q') (still (settle s)) := h.leads
  rw [hostStep_poll h.prog, if_pos (h.busy hq)]
  refine ⟨h.prog, h.busy_iff, .inr ⟨q', rfl⟩, fun rs => ?_⟩
  rw [settle_run hq] at hleads
  rw [settle_run (s := recordRead (wordOf 0x004) (statusWord s) s) hq]
  cases i <;> exact hleads rs

theorem memWrite_busy_iff (a : WordAddr) (v : Word) (h : s.busy = true ↔ s.seq ≠ .idle) :
    (memWrite a v s).busy = true ↔ (memWrite a v s).seq ≠ .idle := by
  rcases memWrite_cases a v s with ⟨e, hw⟩ | ⟨-, i, -, hw⟩ | ⟨-, x, n, l, B, -, hw⟩ <;> rw [hw]
  · exact h
  · simp
  · exact h

/-- On an idle block the host performs the next step of its program. -/
theorem Pending.after_hostStep_idle {op : HostOp} (h : Pending Q rest (op :: q) s) (hq : s.seq = .idle) :
    Pending Q rest q (hostStep false s) := by
  have hb := h.not_busy hq
  have hprog : s.host.prog = op :: (q ++ rest) := h.prog
  have hleads := h.leads
  rw [settle_idle hq] at hleads
  cases op with
  | rd a =>
    have e : hostStep false s = recordRead a (exactRead (regionOf a) s) (hostGoesOn (q ++ rest) s) := by
      simp [hostStep, hprog, portRead, memRead_idle a s hb]
    rw [e]
    refine ⟨rfl, h.busy_iff, .inl hq, ?_⟩
    rw [Leads, exactRead_still] at hleads
    rw [settle_idle (s := recordRead a _ (hostGoesOn (q ++ rest) s)) hq]
    exact hleads
  | wr a v =>
    have e : hostStep false s = hostGoesOn (q ++ rest) (memWrite a v s) := by
      simp [hostStep, hprog, portWrite]
    rw [Leads, ← memWrite_still] at hleads
    rw [e]
    refine ⟨rfl, memWrite_busy_iff a v h.busy_iff, hleads.1, ?_⟩
    rw [settle_still]
    exact hleads.2
  | poll =>
    rw [hostStep_poll hprog, hb, if_neg (by simp)]
    refine ⟨rfl, h.busy_iff, .inl hq, ?_⟩
    rw [settle_idle (s := recordRead _ _ (hostGoesOn (q ++ rest) s)) hq]
    exact hleads _
  | clearKey n =>
    have e : hostStep false s =
        hostGoesOn (q ++ rest) { s with host := { s.host with key := List.replicate n 0 } } := by
      simp [hostStep, hprog]
    rw [e]
    exact ⟨rfl, h.busy_iff, .inl hq, by rw [settle_idle (by exact hq)]; exact hleads⟩
  | absorb n =>
    have e : hostStep false s = hostGoesOn (q ++ rest) { s with
        host := { s.host with key := accumulate s.host.key (bytesRead n s.host.reads) } } := by
      simp [hostStep, hprog]
    rw [e]
    exact ⟨rfl, h.busy_iff, .inl hq, by rw [settle_idle (by exact hq)]; exact hleads⟩

/-- Where the program is carried out, the block is settled and what was promised holds. -/
theorem Pending.done (h : Pending Q rest [] s) : s.host.prog = rest ∧ Q (still s) := by
  have hq : s.seq = .idle := h.poll.resolve_right (by simp)
  have hleads := h.leads
  rw [settle_idle hq] at hleads
  exact ⟨h.prog, hleads⟩

/-! ## Every interleaving -/

theorem hostStep_sched (s : State) : (hostStep false s).sched = s.sched := by
  rcases hostStep_cases false s with ⟨h, d, e⟩ | ⟨-, a, v, h, e⟩ <;> rw [e]
  rcases memWrite_cases a v s with ⟨c, hw⟩ | ⟨-, i, -, hw⟩ | ⟨-, x, n, l, B, -, hw⟩ <;> rw [hw] <;> rfl

/-- A step of either agent keeps the promise, and uses up the move prescribed for it. -/
theorem Pending.after_step (h : Pending Q [] q s) (hm : nextMove s = .host ∨ nextMove s = .engine)
    (hs : step s = .next t) : (∃ q', Pending Q [] q' t) ∧ t.sched = s.sched.tail := by
  have hpop := h.after_popMove
  rcases step_cases s with ⟨-, e⟩ | ⟨-, -, e⟩ | ⟨-, i, hq, e⟩ | ⟨hr, -⟩ | ⟨hr, -⟩
  · obtain rfl := Host.Outcome.next.inj (e.symm.trans hs)
    refine ⟨?_, hostStep_sched _⟩
    cases hq : s.seq with
    | run i => exact ⟨q, hpop.after_hostStep_running hq⟩
    | idle =>
      cases q with
      | nil =>
        have hnil : (popMove s).host.prog = [] := hpop.prog
        exact ⟨[], by rw [hostStep, hnil]; exact hpop⟩
      | cons op q => exact ⟨q, hpop.after_hostStep_idle hq⟩
  · obtain rfl := Host.Outcome.next.inj (e.symm.trans hs)
    exact ⟨⟨q, hpop⟩, rfl⟩
  · exact ⟨⟨q, hpop.after_exec hq (e.symm.trans hs)⟩, (exec_host_sched (e.symm.trans hs)).2⟩
  · simp [hr] at hm
  · simp [hr] at hm

theorem nextMove_of_agents (h : ∀ m, m ∈ s.sched → m = .host ∨ m = .engine) :
    nextMove s = .host ∨ nextMove s = .engine := by
  cases hm : s.sched with
  | nil =>
    cases hq : s.seq with
    | idle => exact .inl (nextMove_idle hq hm)
    | run i => exact .inr (nextMove_running hq hm)
  | cons m ms =>
    have e : nextMove s = m := by simp [nextMove, hm]
    exact e ▸ h m (by simp [hm])

/-- So does every run of the two agents. -/
theorem Pending.after_run (k : Nat) (h : Pending Q [] q s) (hm : ∀ m, m ∈ s.sched → m = .host ∨ m = .engine)
    (hs : Host.Core.run Sys2Proof.core k s = .next t) : ∃ q', Pending Q [] q' t := by
  induction k generalizing s q with
  | zero =>
    obtain rfl := Host.Outcome.next.inj hs
    exact ⟨q, h⟩
  | succ k ih =>
    obtain ⟨u, hu⟩ := everyStepAnswersNext s
    obtain ⟨⟨q', h'⟩, hsched⟩ := h.after_step (nextMove_of_agents hm) hu
    rw [run_succ k hu] at hs
    exact ih h' (fun m hmem => hm m (List.mem_of_mem_tail (hsched ▸ hmem))) hs

/-! ## The default interleaving carries the program out -/

theorem run_add {k : Nat} (h : Host.Core.run Sys2Proof.core k s = .next t) (j : Nat) :
    Host.Core.run Sys2Proof.core (k + j) s = Host.Core.run Sys2Proof.core j t := by
  induction k generalizing s with
  | zero =>
    obtain rfl := Host.Outcome.next.inj h
    rw [Nat.zero_add]
  | succ k ih =>
    obtain ⟨u, hu⟩ := everyStepAnswersNext s
    rw [Nat.succ_add, run_succ _ hu]
    rw [run_succ _ hu] at h
    exact ih h

/-- With no move prescribed a running command is carried to its end. -/
theorem Pending.run_to_idle (h : Pending Q rest q s) (hsched : s.sched = []) :
    ∃ k t, Host.Core.run Sys2Proof.core k s = .next t ∧ Pending Q rest q t ∧ t.seq = .idle ∧ t.sched = [] := by
  induction hl : s.limit.toNat using Nat.strong_induction_on generalizing s with
  | _ l ih =>
    cases hq : s.seq with
    | idle => exact ⟨0, s, rfl, h, hq, hsched⟩
    | run i =>
      obtain ⟨u, hu⟩ := exec_next i s
      have hstep := (step_running_default hq hsched).trans hu
      have husched : u.sched = [] := (exec_host_sched hu).2.trans hsched
      rcases exec_commandEnd hu with rfl | ⟨-, -, -, -, hlt, -⟩
      · exact ⟨1, _, run_succ 0 hstep, h.after_exec hq hu, commandEnd_seq i s, husched⟩
      · obtain ⟨k, t, hrun, ht⟩ := ih _ (hl ▸ hlt) (h.after_exec hq hu) husched rfl
        exact ⟨k + 1, t, (run_succ k hstep).trans hrun, ht⟩

/-- With no move prescribed the program is carried out. -/
theorem Pending.run_to_end (h : Pending Q rest q s) (hsched : s.sched = []) :
    ∃ k t, Host.Core.run Sys2Proof.core k s = .next t ∧ Pending Q rest [] t := by
  induction q generalizing s with
  | nil => exact ⟨0, s, rfl, h⟩
  | cons op q ih =>
    obtain ⟨k, u, hrun, hu, hq, husched⟩ := h.run_to_idle hsched
    obtain ⟨j, t, hrun', ht⟩ := ih (hu.after_hostStep_idle hq) ((hostStep_sched u).trans husched)
    refine ⟨k + (j + 1), t, ?_, ht⟩
    rw [run_add hrun, run_succ j (step_idle_default hq husched), hrun']

end Pending

end Sys2Proof.Machine
end

section
/-! The result of the keystream procedure (O56, O57) and the XOR with it (O59). -/

namespace Sys2Proof.Machine

/-! ## The lines of the procedure on the settled block -/

section Lines

variable {Q : State → Prop} {q : List HostOp} {s : State}

/-- A data write that passes its checks. -/
theorem leads_write {a : WordAddr} {v : Word} {r : Region} (hq : s.seq = .idle) (hb : s.busy = false)
    (hr : regionOf a = r) (hc : r ≠ .cmd) (hw : r.writable = true) (hv : r = .len → v.toNat ≤ 256)
    (hseq : (performWrite r v s).seq = s.seq) (h : Leads Q q (performWrite r v s)) : Leads Q (.wr a v :: q) s := by
  have e : memWrite a v s = performWrite r v s :=
    Host.Outcome.next.inj ((step_hostNext_wr s a v).symm.trans (step_wr_performs hr hc hw hb hv))
  rw [Leads, e, settle_idle (hseq.trans hq)]
  exact ⟨.inl (hseq.trans hq), h⟩

theorem leads_hostWriteSeed (hq : s.seq = .idle) (hb : s.busy = false) {v : DWord}
    (h : Leads Q q { s with seed := v }) : Leads Q (hostWriteSeed v ++ q) s := by
  refine leads_write (r := .seedLo) hq hb (by decide) nofun rfl nofun rfl ?_
  refine leads_write (r := .seedHi) hq hb (by decide) nofun rfl nofun rfl ?_
  simp only [performWrite, withHi_withLo]
  exact h

theorem leads_hostWriteLen (hq : s.seq = .idle) (hb : s.busy = false) {n : Nat} (hn : n ≤ 256)
    (h : ∀ l : BitVec 9, l.toNat = n → Leads Q q { s with len := l }) : Leads Q (hostWriteLen n :: q) s := by
  have hv : (BitVec.ofNat 32 n).toNat = n := Nat.mod_eq_of_lt (by omega)
  refine leads_write (r := .len) hq hb (by decide) nofun rfl (fun _ => hv.le.trans hn) rfl ?_
  exact h _ ((extractLen_toNat (hv.le.trans hn)).trans hv)

/-- `RUN i`: the command is accepted and the settled block is the one in which it ends. -/
theorem leads_hostRun {i : Instr} (hb : s.busy = false) (hs : i = .gen → s.seeded = true)
    (h : ∀ rs, Leads Q q { commandEnd i (latchCommand i s) with
      host := { s.host with reads := rs } }) : Leads Q (hostRun i ++ q) s := by
  have e : memWrite (wordOf 0x000) (encode i) s = latchCommand i s := by
    rw [memWrite, if_pos (by decide), acceptCommand_encode hb hs]
  have hleads : Leads Q (.poll :: q) (settle (latchCommand i s)) := by
    intro rs
    rw [settle_run (i := i) rfl, commandEnd_host]
    exact h rs
  exact ⟨.inr ⟨q, rfl⟩, by rw [e]; exact hleads⟩

theorem leads_reads (addr : Nat → WordAddr) (m : Nat)
    (h : Leads Q q { s with host := { s.host with reads := windowReads addr m s ++ s.host.reads } }) :
    Leads Q ((List.range m).map (fun w => .rd (addr w)) ++ q) s := by
  induction m generalizing q with
  | zero => exact h
  | succ m ih =>
    rw [List.range_succ, List.map_append, List.append_assoc]
    refine ih ?_
    rw [windowReads_succ] at h
    show Leads Q q _
    rw [exactRead_host]
    exact h

/-- `RDBYTES WBUF, n` followed by the host's absorption of the bytes read. -/
theorem leads_absorb {n : Nat} (hn : n ≤ 256)
    (h : ∀ rs, Leads Q q { s with
      host := { s.host with reads := rs, key := accumulate s.host.key (prefixOf s.wbuf n) } }) :
    Leads Q (hostReadWbuf n ++ .absorb n :: q) s := by
  refine leads_reads _ _ ?_
  have e := bytesRead_windowReads hn (fun w hw => congrArg (exactRead · s) (regionOf_wbuf hw)) s.host.reads
  rw [Leads]
  dsimp only
  rw [e]
  exact h _

end Lines

/-! ## A round -/

theorem prefixOf_copyPrefix {n : Nat} (hn : n ≤ 256) (P W : Buffer) : prefixOf (copyPrefix n P W) n = prefixOf P n := by
  rw [prefixOf_eq_map _ n hn, prefixOf_eq_map _ n hn]
  refine List.map_congr_left fun k hk => ?_
  have hkn := List.mem_range.1 hk
  rw [byteAt_copyPrefix _ _ _ (by omega), if_pos hkn]

/-- The settled block between two rounds. -/
structure Ready (n : Nat) (s : State) : Prop where
  seq : s.seq = .idle
  busy : s.busy = false
  seeded : s.seeded = true
  len : s.len.toNat = n

/-- One round of the procedure is one round of the source's derivation (rules R170, R174). -/
theorem leads_round {Q : State → Prop} {q : List HostOp} {s : State} {n : Nat} (hn : n ≤ 256) (hs : Ready n s)
    (h : ∀ t, Ready n t → t.g = (generate Config.prng s.g).g →
      t.host.key = accumulate s.host.key (component n (generate Config.prng s.g)) → Leads Q q t) :
    Leads Q (roundProgram n ++ q) s := by
  obtain ⟨-, hb, hseeded, rfl⟩ := hs
  simp only [roundProgram, List.append_assoc, List.cons_append, List.nil_append]
  refine leads_hostRun hb (fun _ => hseeded) fun _ => ?_
  refine leads_hostRun rfl nofun fun _ => ?_
  refine leads_hostRun rfl nofun fun _ => ?_
  refine leads_absorb hn fun _ => h _ ⟨rfl, rfl, hseeded, rfl⟩ rfl ?_
  refine congrArg (accumulate s.host.key) ?_
  exact prefixOf_sortWithLimit_congr hn (prefixOf_copyPrefix hn _ _) _

/-- The rounds of the procedure are those of the source's derivation. -/
theorem leads_rounds {n : Nat} (hn : n ≤ 256) (k : Nat) {s : State} {key : List Byte} (hs : Ready n s)
    (h : deriveRounds Config.prng n k s.g s.host.key = key) :
    Leads (fun t => t.host.key = key) (roundsProgram n k) s := by
  induction k generalizing s with
  | zero => exact h
  | succ k ih =>
    refine leads_round hn hs fun t ht hg hkey => ih ht ?_
    rw [hg, hkey]
    exact h

/-- The procedure leads to the key of the source's `derive` (rule R170). -/
theorem leads_keystreamProgram {seed : DWord} {n : Nat} {p : List HostOp} (hp : keystreamProgram seed n = some p)
    {s : State} (hq : s.seq = .idle) (hb : s.busy = false) :
    Leads (fun t => t.host.key = derive Config.prng seed n) p s := by
  have hn : n ≤ 256 := by
    by_contra hlt
    simp [keystreamProgram_eq_none_iff.2 (Nat.lt_of_not_le hlt)] at hp
  rw [keystreamProgram, if_pos (by simpa [lengthOk] using hn)] at hp
  obtain rfl := Option.some.inj hp
  rw [List.cons_append, List.nil_append, Leads]
  refine leads_hostWriteSeed (by exact hq) (by exact hb) ?_
  refine leads_hostRun (by exact hb) nofun fun _ => ?_
  refine leads_hostWriteLen rfl rfl hn fun l hl => ?_
  refine leads_rounds hn keystreamRounds ⟨rfl, rfl, rfl, hl⟩ ?_
  rw [derive]
  rfl

theorem pending_keystreamProgram {seed : DWord} {n : Nat} {p rest : List HostOp}
    (hp : keystreamProgram seed n = some p) {s : State} (hq : s.seq = .idle) (hb : s.busy = false)
    (hprog : s.host.prog = p ++ rest) : Pending (fun t => t.host.key = derive Config.prng seed n) rest p s := by
  refine ⟨hprog, by simp [hq, hb], .inl hq, ?_⟩
  rw [settle_idle hq]
  exact leads_keystreamProgram hp hq hb

/-- Settles O57: every step of the two agents keeps what the procedure leads to. -/
theorem keystreamIndependentOfInterleaving : Obligations.KeystreamIndependentOfInterleaving := by
  intro s t seed n k p hq hb hp hprog hsched hrun hdone
  obtain ⟨q, h⟩ := (pending_keystreamProgram (rest := []) hp hq hb (by simpa using hprog)).after_run k hsched hrun
  have hprog' := h.prog
  rw [hdone, List.append_nil] at hprog'
  subst hprog'
  exact h.done.2

/-- Settles O56: the default interleaving carries the procedure out. -/
theorem keystreamProcedureDerives : Obligations.KeystreamProcedureDerives := by
  intro s seed n p rest hq hb hp
  obtain ⟨k, t, hrun, ht⟩ :=
    (pending_keystreamProgram (s := s.withProgram (p ++ rest)) hp hq hb rfl).run_to_end rfl
  exact ⟨k, t, hrun, ht.done⟩

/-! ## The XOR with the keystream (rule R176) -/

theorem component_length {n : Nat} (hn : n ≤ 256) (r : Generated) : (component n r).length = n :=
  prefixOf_length _ n hn

theorem accumulate_length {n : Nat} {key c : List Byte} (hk : key.length = n) (hc : c.length = n) :
    (accumulate key c).length = n := by
  simp [accumulate, xorBytes, hk, hc]

theorem deriveRounds_length (P : Prng) {n : Nat} (hn : n ≤ 256) (k : Nat) (g : PrngState) {key : List Byte}
    (hk : key.length = n) : (deriveRounds P n k g key).length = n := by
  induction k generalizing g key with
  | zero => exact hk
  | succ k ih => exact ih _ (accumulate_length hk (component_length hn _))

theorem derive_length (P : Prng) (seed : DWord) {n : Nat} (hn : n ≤ 256) : (derive P seed n).length = n :=
  deriveRounds_length P hn _ _ (by simp)

theorem xorBytes_xorBytes {plain key : List Byte} (h : plain.length = key.length) :
    xorBytes (xorBytes plain key) key = plain := by
  refine List.ext_getElem (by simp [xorBytes, h]) fun k h1 h2 => ?_
  simp [xorBytes]

theorem xorBytes_self (key : List Byte) : xorBytes key key = List.replicate key.length 0 := by
  refine List.ext_getElem (by simp [xorBytes]) fun k h1 h2 => ?_
  simp [xorBytes]

/-- Settles O59: the keystream is as long as the plaintext, and a byte XOR itself is 0. -/
theorem keystreamRoundTrip : Obligations.KeystreamRoundTrip := by
  intro P seed n plain hn hlen
  have hkey := derive_length P seed hn
  refine ⟨xorBytes_xorBytes (hlen.trans hkey.symm), ?_⟩
  rw [xorBytes_self, hkey]

end Sys2Proof.Machine
end
